-- ==== Sys2Proof/Word.lean ====
section
/-! DEFINITION. The two word types of the block (00_scope.md R8; 10_state.md R24; 20_memory.md R41).
`BitVec.toInt` is the spec's `sint`, `BitVec.toNat` its `uint`, `BitVec.ofInt 32` its `trunc_32`,
and `+`, `-` on a word wrap modulo 2^32. -/

namespace Sys2Proof

/-- A word: a 32-bit bit vector (R8). -/
abbrev Word := BitVec 32

/-- A memory byte: 8 bits (R41). -/
abbrev Byte := BitVec 8

end Sys2Proof
end

