-- ==== Sys2Proof/Syntax.lean ====
section
/-! DEFINITION. The syntax of the 28 instructions (30_encoding.md R77): `Instr`, one constructor per row of
spec/opcode_table.json, over the eight registers, and `Raw`, the fields the decoder cuts an instruction's
bytes into before it checks them (40_fsm.md R106). -/

namespace Sys2Proof

/-- The eight general registers in index order (10_state.md R20, R21). A register operand is one of them,
so an index above 7 is no operand of `Instr`: R75 refuses it in the decoder. -/
inductive Reg where
  | eax | ecx | edx | ebx | esp | ebp | esi | edi
  deriving DecidableEq, Repr

/-- The instructions with the operands they use (R77, operand roles as in R83). `rA` and `rB` keep the
spec's names; `disp`, `imm` and `dest` are the 4-byte field (R76). -/
inductive Instr where
  | nop
  | halt
  | rrmovl (rA rB : Reg)
  | irmovl (rB : Reg) (imm : Word)
  | rmmovl (rA rB : Reg) (disp : Word)
  | mrmovl (rA rB : Reg) (disp : Word)
  | addl (rA rB : Reg)
  | subl (rA rB : Reg)
  | andl (rA rB : Reg)
  | xorl (rA rB : Reg)
  | mull (rA rB : Reg)
  | cmpl (rA rB : Reg)
  | jmp (dest : Word)
  | jle (dest : Word)
  | jl (dest : Word)
  | je (dest : Word)
  | jne (dest : Word)
  | jge (dest : Word)
  | jg (dest : Word)
  | call (dest : Word)
  | ret
  | pushl (rA : Reg)
  | popl (rA : Reg)
  | readb (rA : Reg) (disp : Word)
  | readl (rA : Reg) (disp : Word)
  | writeb (rA : Reg) (disp : Word)
  | writel (rA : Reg) (disp : Word)
  | movsbl (rA rB : Reg) (disp : Word)
  deriving DecidableEq, Repr

/-- The four formats (R71). -/
inductive Format where
  | n | r | j | m
  deriving DecidableEq, Repr

/-- The fields of an instruction's bytes, unchecked (R106): the opcode byte, the two 4-bit register fields of
formats R and M, and the 4-byte field of formats M (`imm32`) and J (`dest`). A field the format lacks is a
placeholder nothing reads, `0xF` or `0` (log entry 15). -/
structure Raw where
  opcode : Byte
  rA : BitVec 4
  rB : BitVec 4
  imm : Word
  deriving DecidableEq, Repr

end Sys2Proof
end

