-- ==== Sys2Proof/WellFormed.lean ====
section
/-! DEFINITION. Which fields are a legal instruction, written from the tables of 30_encoding.md alone and
apart from the decoder: the 28 opcode bytes (R77, R79), the lengths (R78), which register fields are used
(R74, 40_fsm.md R110) and the check that a used one is at most 7 (R75, R107). Statements hold the decoder
against these. Every term of `Instr` is well formed by its type; the checks are on `Raw`. -/

namespace Sys2Proof.Raw

/-- The 28 opcode bytes (R77). -/
def opcodes : List Byte :=
  [0x00, 0x10, 0x20, 0x30, 0x40, 0x50] ++ [0x60, 0x61, 0x62, 0x63, 0x64, 0x65]
    ++ [0x70, 0x71, 0x72, 0x73, 0x74, 0x75, 0x76] ++ [0x80, 0x90, 0xA0, 0xB0]
    ++ [0xC0, 0xC1, 0xD0, 0xD1, 0xE0]

/-- The opcode byte is one of the 28 (R104). -/
def knownOpcode (op : Byte) : Bool := opcodes.contains op

/-- Instruction length by opcode (R78); meaningful for a known opcode. -/
def length (op : Byte) : Nat :=
  if [0x00#8, 0x10#8, 0x90#8].contains op then 1
  else if [0x20#8, 0x60#8, 0x61#8, 0x62#8, 0x63#8, 0x64#8, 0x65#8, 0xA0#8, 0xB0#8].contains op then 2
  else if [0x70#8, 0x71#8, 0x72#8, 0x73#8, 0x74#8, 0x75#8, 0x76#8, 0x80#8].contains op then 5
  else 6

/-- `usesB` of R110, word for word: the opcodes whose rB field is used. -/
def usesB (op : Byte) : Bool :=
  [0x20#8, 0x30#8, 0x40#8, 0x50#8, 0x60#8, 0x61#8, 0x62#8, 0x63#8, 0x64#8, 0x65#8, 0xE0#8].contains op

/-- The opcodes of formats R and M, which have a register byte (R71). -/
def hasRegisterByte (op : Byte) : Bool := knownOpcode op && (length op == 2 || length op == 6)

/-- `usesA` of R110: every format R and M opcode except `0x30`. -/
def usesA (op : Byte) : Bool := hasRegisterByte op && op != 0x30#8

/-- Every used register field holds 0 to 7 (R75, R107). -/
def fieldsInRange (r : Raw) : Bool :=
  (!usesA r.opcode || decide (r.rA.toNat ≤ 7)) && (!usesB r.opcode || decide (r.rB.toNat ≤ 7))

/-- A legal instruction: a known opcode (R79) with its used register fields in range (R75). -/
def wellFormed (r : Raw) : Bool := knownOpcode r.opcode && r.fieldsInRange

/-- The unused register fields hold `0xF`, as the encoder writes them (R74): with `wellFormed`, the
"valid encoding" of R81. -/
def canonical (r : Raw) : Bool := (usesA r.opcode || r.rA == 0xF#4) && (usesB r.opcode || r.rB == 0xF#4)

end Sys2Proof.Raw
end

