-- ==== Sys2Proof/Decode.lean ====
section
/-! DEFINITION. The instruction decoder and the encoder (30_encoding.md; 40_fsm.md R104 to R107), and the
byte-order helpers both and the memory port use (R76, 20_memory.md R44, R46). Decoding goes bytes → `Raw`
(R106) → `Instr` (R104, R107); encoding goes back the same way. -/

namespace Sys2Proof

/-- The word whose little-endian bytes are `b0 b1 b2 b3` (R44, R76). -/
def wordOfBytes (b0 b1 b2 b3 : Byte) : Word := b3 ++ b2 ++ b1 ++ b0

/-- Byte `k` of a word, `v[8k+7:8k]` (R46, R54). -/
def byteOfWord (v : Word) (k : Nat) : Byte := v.extractLsb' (8 * k) 8

/-- The four bytes of a word in address order (R46). -/
def bytesOfWord (v : Word) : List Byte := [byteOfWord v 0, byteOfWord v 1, byteOfWord v 2, byteOfWord v 3]

/-- The high nibble of the register byte, field rA (R73). -/
def highNibble (b : Byte) : BitVec 4 := b.extractLsb' 4 4

/-- The low nibble of the register byte, field rB (R73). -/
def lowNibble (b : Byte) : BitVec 4 := b.extractLsb' 0 4

/-- The register byte of two fields, rA in the high nibble (R73). -/
def registerByte (rA rB : BitVec 4) : Byte := rA ++ rB

/-- The index of a register as a 4-bit field (10_state.md R21). -/
def Reg.code : Reg → BitVec 4
  | .eax => 0 | .ecx => 1 | .edx => 2 | .ebx => 3 | .esp => 4 | .ebp => 5 | .esi => 6 | .edi => 7

/-- The register a 4-bit field names; none for 8 to 15 (R75). -/
def Reg.ofField (f : BitVec 4) : Option Reg :=
  match f.toNat with
  | 0 => some .eax | 1 => some .ecx | 2 => some .edx | 3 => some .ebx
  | 4 => some .esp | 5 => some .ebp | 6 => some .esi | 7 => some .edi
  | _ => none

/-- Why the decoder refuses bytes. -/
inductive DecodeError where
  /-- Fewer bytes than the opcode's length, or none at all (R105). -/
  | truncated
  /-- The opcode byte is not one of the 28 (R79, R104). -/
  | unknownOpcode
  /-- A used register field holds 8 to 15 (R75, R107). -/
  | badRegister
  deriving DecidableEq, Repr

/-- The length of each format (R71). -/
def Format.length : Format → Nat
  | .n => 1 | .r => 2 | .j => 5 | .m => 6

/-- The format of each opcode byte, none for an illegal one (R71, R77, R79). -/
def opcodeFormat (op : Byte) : Option Format :=
  match op.toNat with
  | 0x00 | 0x10 | 0x90 => some .n
  | 0x20 | 0x60 | 0x61 | 0x62 | 0x63 | 0x64 | 0x65 | 0xA0 | 0xB0 => some .r
  | 0x70 | 0x71 | 0x72 | 0x73 | 0x74 | 0x75 | 0x76 | 0x80 => some .j
  | 0x30 | 0x40 | 0x50 | 0xC0 | 0xC1 | 0xD0 | 0xD1 | 0xE0 => some .m
  | _ => none

/-- The instruction length an opcode byte alone decides: the source's `encodedLength` (R78). -/
def encodedLength (op : Byte) : Option Nat := (opcodeFormat op).map Format.length

/-- Cut the bytes after the opcode into fields by the format (R71, R73, R76, R106); the second part is what
follows the instruction. None if bytes are missing. -/
def splitFields (op : Byte) : Format → List Byte → Option (Raw × List Byte)
  | .n, rest => some (⟨op, 0xF, 0xF, 0⟩, rest)
  | .r, rb :: rest => some (⟨op, highNibble rb, lowNibble rb, 0⟩, rest)
  | .j, b0 :: b1 :: b2 :: b3 :: rest => some (⟨op, 0xF, 0xF, wordOfBytes b0 b1 b2 b3⟩, rest)
  | .m, rb :: b0 :: b1 :: b2 :: b3 :: rest =>
    some (⟨op, highNibble rb, lowNibble rb, wordOfBytes b0 b1 b2 b3⟩, rest)
  | _, _ => none

/-- An instruction over register field rA alone; rB is ignored (R74, R107). -/
def Raw.withA (r : Raw) (mk : Reg → Instr) : Except DecodeError Instr :=
  match Reg.ofField r.rA with
  | some a => .ok (mk a)
  | none => .error .badRegister

/-- An instruction over register field rB alone; rA is ignored (R74, R107). -/
def Raw.withB (r : Raw) (mk : Reg → Instr) : Except DecodeError Instr :=
  match Reg.ofField r.rB with
  | some b => .ok (mk b)
  | none => .error .badRegister

/-- An instruction over both register fields (R74, R107). -/
def Raw.withAB (r : Raw) (mk : Reg → Reg → Instr) : Except DecodeError Instr :=
  match Reg.ofField r.rA, Reg.ofField r.rB with
  | some a, some b => .ok (mk a b)
  | _, _ => .error .badRegister

/-- The instruction of checked fields: the opcode map (R77) with the register check (R107). -/
def Raw.toInstr (r : Raw) : Except DecodeError Instr :=
  match r.opcode.toNat with
  | 0x00 => .ok .nop
  | 0x10 => .ok .halt
  | 0x20 => r.withAB .rrmovl
  | 0x30 => r.withB (.irmovl · r.imm)
  | 0x40 => r.withAB (.rmmovl · · r.imm)
  | 0x50 => r.withAB (.mrmovl · · r.imm)
  | 0x60 => r.withAB .addl
  | 0x61 => r.withAB .subl
  | 0x62 => r.withAB .andl
  | 0x63 => r.withAB .xorl
  | 0x64 => r.withAB .mull
  | 0x65 => r.withAB .cmpl
  | 0x70 => .ok (.jmp r.imm)
  | 0x71 => .ok (.jle r.imm)
  | 0x72 => .ok (.jl r.imm)
  | 0x73 => .ok (.je r.imm)
  | 0x74 => .ok (.jne r.imm)
  | 0x75 => .ok (.jge r.imm)
  | 0x76 => .ok (.jg r.imm)
  | 0x80 => .ok (.call r.imm)
  | 0x90 => .ok .ret
  | 0xA0 => r.withA .pushl
  | 0xB0 => r.withA .popl
  | 0xC0 => r.withA (.readb · r.imm)
  | 0xC1 => r.withA (.readl · r.imm)
  | 0xD0 => r.withA (.writeb · r.imm)
  | 0xD1 => r.withA (.writel · r.imm)
  | 0xE0 => r.withAB (.movsbl · · r.imm)
  | _ => .error .unknownOpcode

/-- The decoder: the instruction at the head of `bytes` and the bytes after it. The order of the refusals is
that of R111: opcode, then missing bytes, then register fields. -/
def decode : List Byte → Except DecodeError (Instr × List Byte)
  | [] => .error .truncated
  | op :: rest =>
    match opcodeFormat op with
    | none => .error .unknownOpcode
    | some f =>
      match splitFields op f rest with
      | none => .error .truncated
      | some (raw, rest') =>
        match raw.toInstr with
        | .ok i => .ok (i, rest')
        | .error e => .error e

/-- The fields of an instruction; an unused register field is `0xF` (R74, R77). -/
def Instr.toRaw : Instr → Raw
  | .nop => ⟨0x00, 0xF, 0xF, 0⟩
  | .halt => ⟨0x10, 0xF, 0xF, 0⟩
  | .rrmovl a b => ⟨0x20, a.code, b.code, 0⟩
  | .irmovl b v => ⟨0x30, 0xF, b.code, v⟩
  | .rmmovl a b d => ⟨0x40, a.code, b.code, d⟩
  | .mrmovl a b d => ⟨0x50, a.code, b.code, d⟩
  | .addl a b => ⟨0x60, a.code, b.code, 0⟩
  | .subl a b => ⟨0x61, a.code, b.code, 0⟩
  | .andl a b => ⟨0x62, a.code, b.code, 0⟩
  | .xorl a b => ⟨0x63, a.code, b.code, 0⟩
  | .mull a b => ⟨0x64, a.code, b.code, 0⟩
  | .cmpl a b => ⟨0x65, a.code, b.code, 0⟩
  | .jmp t => ⟨0x70, 0xF, 0xF, t⟩
  | .jle t => ⟨0x71, 0xF, 0xF, t⟩
  | .jl t => ⟨0x72, 0xF, 0xF, t⟩
  | .je t => ⟨0x73, 0xF, 0xF, t⟩
  | .jne t => ⟨0x74, 0xF, 0xF, t⟩
  | .jge t => ⟨0x75, 0xF, 0xF, t⟩
  | .jg t => ⟨0x76, 0xF, 0xF, t⟩
  | .call t => ⟨0x80, 0xF, 0xF, t⟩
  | .ret => ⟨0x90, 0xF, 0xF, 0⟩
  | .pushl a => ⟨0xA0, a.code, 0xF, 0⟩
  | .popl a => ⟨0xB0, a.code, 0xF, 0⟩
  | .readb a d => ⟨0xC0, a.code, 0xF, d⟩
  | .readl a d => ⟨0xC1, a.code, 0xF, d⟩
  | .writeb a d => ⟨0xD0, a.code, 0xF, d⟩
  | .writel a d => ⟨0xD1, a.code, 0xF, d⟩
  | .movsbl a b d => ⟨0xE0, a.code, b.code, d⟩

/-- The bytes of fields laid out by their format (R71, R73, R76). -/
def Raw.bytes (r : Raw) : Format → List Byte
  | .n => [r.opcode]
  | .r => [r.opcode, registerByte r.rA r.rB]
  | .j => r.opcode :: bytesOfWord r.imm
  | .m => r.opcode :: registerByte r.rA r.rB :: bytesOfWord r.imm

/-- The format of an instruction (R71). -/
def Instr.format : Instr → Format
  | .nop | .halt | .ret => .n
  | .rrmovl .. | .addl .. | .subl .. | .andl .. | .xorl .. | .mull .. | .cmpl .. | .pushl .. | .popl .. => .r
  | .jmp .. | .jle .. | .jl .. | .je .. | .jne .. | .jge .. | .jg .. | .call .. => .j
  | .irmovl .. | .rmmovl .. | .mrmovl .. | .readb .. | .readl .. | .writeb .. | .writel .. | .movsbl .. => .m

/-- The length `L` of an instruction (R78). -/
def Instr.length (i : Instr) : Nat := i.format.length

/-- The encoder: the bytes of an instruction in address order (R71, R73, R74, R76, R77). -/
def encode (i : Instr) : List Byte := i.toRaw.bytes i.format

/-- The first six bytes, the longest instruction, of the instruction whose `nbits` bits are `w`: byte `k` is
bits `8k+7 .. 8k` of `w` (the numbering of spec/opcode_table.json), and every bit above `nbits` is 0. -/
def tableBytes (nbits w : Nat) : List Byte :=
  (List.range 6).map fun k => BitVec.ofNat 8 ((w % 2 ^ nbits) >>> (8 * k))

/-- The instruction the decoder reads from an opcode-table word. -/
def decodeTableWord (nbits w : Nat) : Option Instr :=
  match decode (tableBytes nbits w) with
  | .ok (i, _) => some i
  | .error _ => none

end Sys2Proof
end

