-- ==== Sys2Proof/Config.lean ====
section
/-! DEFINITION. The parameters of a run (00_scope.md R6) and the values the spec leaves open.
`MEM_SIZE`, `ENTRY`, `INIT_MEM` and `INPUT` are fixed per run and not per hardware, so they are
arguments (`RunParams`); only `Config.resetRun`, the parameters of `State.reset`, names values. -/

namespace Sys2Proof

/-- One item of the input sequence or of the output record: a byte or a word (R64, R65). -/
inductive IoItem where
  | byte (b : Byte)
  | word (w : Word)
  deriving DecidableEq, Repr, Inhabited

/-- The legal values of `MEM_SIZE`: `0 <= MEM_SIZE <= 2^31 - 1` (R6). -/
abbrev MemSize := Fin (2 ^ 31)

/-- The parameter `INPUT` (R6): any finite or infinite sequence of input items. -/
inductive Input where
  | finite (items : List IoItem)
  | infinite (item : Nat → IoItem)

/-- What a state lists of `INPUT`, as plain data: its first items, and whether more than these follow. With
`endless := false` the sequence ends after `items` (R64). With `endless := true` an item beyond them is
`Config.endlessItem`, a free value (log entry 6); a run on an `Input` never reads one (`State.offer`). -/
structure InputSeq where
  items : List IoItem
  endless : Bool
  deriving DecidableEq, Repr

/-- Item `k` of the sequence; none at its end (R64). -/
def Input.item : Input → Nat → Option IoItem
  | .finite items, k => items[k]?
  | .infinite item, k => some (item k)

/-- The listing of a sequence for a state that reads no item beyond the first `n`: a finite sequence in full, of an
infinite one those `n`. -/
def Input.listed : Input → Nat → InputSeq
  | .finite items, _ => ⟨items, false⟩
  | .infinite item, n => ⟨(List.range n).map item, true⟩

/-- The four parameters of a run (R6). `initMem` lists the non-zero bytes of `INIT_MEM` by rising address. -/
structure RunParams where
  memSize : MemSize
  entry : Word
  initMem : List Host.Cell
  input : Input

namespace Config

/-- FREE VALUE (log entry 6, DESIGN CHOICE): item `k` of an input that goes on, beyond the items a state lists. -/
opaque endlessItem : Nat → IoItem

/-- FREE VALUE (log entry 5, DESIGN CHOICE): the byte a `readb` is given when the next item, at cursor `k`, is
the word `w`. R64 gives a `BYTE` read an 8-bit byte and does not say which one then. -/
opaque byteOfWordItem : Nat → Word → Byte

/-- FREE VALUE (log entry 5, DESIGN CHOICE): the word a `readl` is given when the next item, at cursor `k`, is
the byte `b`. -/
opaque wordOfByteItem : Nat → Byte → Word

/-- The parameters of `State.reset` (log entry 1, DESIGN CHOICE): the largest memory R6 admits, every byte 0
(R40), entry point 0, and an input that is at its end. -/
def resetRun : RunParams where
  memSize := 2147483647
  entry := 0
  initMem := []
  input := .finite []

end Config

end Sys2Proof
end

