-- ==== Sys2Proof/Machine/State.lean ====
section
/-! DEFINITION. The architectural state of the block (10_state.md; 20_memory.md R40; INVENTORY.md, State),
as plain data, the reasons a step can stop, and the state after reset (R32, 70_reset_and_hazards.md R220). -/

namespace Sys2Proof.Machine

/-- The status register (R27, R100). -/
inductive Status where
  | running | halted | invalidAddress | invalidInstruction
  deriving DecidableEq, Repr

/-- The two causes an instruction can `raise` (00_scope.md R9; 60_exceptions.md R201, R202). -/
inductive Cause where
  | invalidAddress | invalidInstruction
  deriving DecidableEq, Repr

/-- Why `step` has no next state. -/
inductive Fault where
  /-- Raised by `step` alone, in a state whose status is terminal: "when `status` is one of them the FSM takes no
  step" (40_fsm.md R102). Safe: no claim about a state after it can be proved (log entry 4). -/
  | runOver
  deriving DecidableEq, Repr

/-- Why an instruction is refused. -/
inductive Refusal where
  /-- Raised by `exec` for an instruction that has no meaning yet, of which this model has none. Safe. -/
  | notModelled (mnemonic : String)
  deriving DecidableEq, Repr

/-- The register file: eight 32-bit registers (R20, R21). -/
structure RegFile where
  eax : Word
  ecx : Word
  edx : Word
  ebx : Word
  esp : Word
  ebp : Word
  esi : Word
  edi : Word
  deriving DecidableEq, Repr

/-- The memory array (R40) as the list of its non-zero bytes: addresses strictly rising, no entry 0
(`Memory.wf`). An address that is not listed reads as 0, the byte R40 initializes it to. -/
abbrev Memory := List Host.Cell

/-- The architectural state (10_state.md R20 to R32), and the two run parameters the rules read during a run:
`memSize` (`MEM_SIZE`) and `input` (`INPUT`), which no step writes (R6, R31). -/
structure State where
  /-- x[0] to x[7] (R20) -/
  regs : RegFile
  /-- the program counter (R25) -/
  pc : Word
  /-- the zero flag (R28) -/
  zf : Bool
  /-- the sign flag (R28) -/
  sf : Bool
  /-- the overflow flag (R28) -/
  of : Bool
  /-- the status register (R27) -/
  status : Status
  /-- `MEM_SIZE` (R6, R40) -/
  memSize : MemSize
  /-- the memory array (R40) -/
  mem : Memory
  /-- the items of `INPUT` the state lists (R6, R64) -/
  input : InputSeq
  /-- the input cursor, the number of items delivered so far (R30, R64) -/
  cursor : Nat
  /-- the output record, oldest item first (R30, R65) -/
  output : List IoItem
  deriving DecidableEq, Repr

/-- The state in which a run with parameters `p` begins (R32, R220): every register and flag 0, `pc` at
`ENTRY`, status RUNNING, memory `INIT_MEM`, the cursor at the first item, the output record empty. Of an infinite `INPUT`
the state lists the item at the cursor. -/
def State.ofRun (p : RunParams) : State where
  regs := ⟨0, 0, 0, 0, 0, 0, 0, 0⟩
  pc := p.entry
  zf := false
  sf := false
  of := false
  status := .running
  memSize := p.memSize
  mem := p.initMem
  input := p.input.listed 1
  cursor := 0
  output := []

/-- The machine right after reset, with the run parameters of `Config.resetRun` (log entry 1). -/
def State.reset : State := State.ofRun Config.resetRun

end Sys2Proof.Machine
end

