-- ==== Sys2Proof/Machine/Ops.lean ====
section
/-! DEFINITION. The named operations every meaning goes through: registers, memory and its port controller
(20_memory.md R42 to R51), the I/O ports (R64, R65), raising a cause (60_exceptions.md R200 to R205) and the
two shapes of a check phase followed by a commit phase (00_scope.md R10). -/

namespace Sys2Proof.Machine

/-- What a step or a meaning answers. -/
abbrev Result := Host.Outcome State Fault Refusal

/-! ## Registers, flags, program counter, status -/

/-- `x[r]` (R9, R20). No register is hardwired (R22). -/
def RegFile.read (f : RegFile) : Reg → Word
  | .eax => f.eax | .ecx => f.ecx | .edx => f.edx | .ebx => f.ebx
  | .esp => f.esp | .ebp => f.ebp | .esi => f.esi | .edi => f.edi

/-- `x[r] <- v` (R9, R20). -/
def RegFile.write (f : RegFile) (r : Reg) (v : Word) : RegFile :=
  match r with
  | .eax => { f with eax := v } | .ecx => { f with ecx := v }
  | .edx => { f with edx := v } | .ebx => { f with ebx := v }
  | .esp => { f with esp := v } | .ebp => { f with ebp := v }
  | .esi => { f with esi := v } | .edi => { f with edi := v }

/-- Read register `r` of a state (R9). -/
def State.reg (s : State) (r : Reg) : Word := s.regs.read r

/-- Write register `r` of a state (R9). -/
def State.setReg (s : State) (r : Reg) (v : Word) : State := { s with regs := s.regs.write r v }

/-- `pc <- t` (R9). -/
def State.setPc (s : State) (t : Word) : State := { s with pc := t }

/-- `ZF <- b` (R9). -/
def State.setZf (s : State) (b : Bool) : State := { s with zf := b }

/-- `ZF <- z ; SF <- n ; OF <- o` (R9). -/
def State.setFlags (s : State) (z n o : Bool) : State := { s with zf := z, sf := n, of := o }

/-- `status <- v` (R9, R27). -/
def State.setStatus (s : State) (v : Status) : State := { s with status := v }

/-- The two bits of the status port (R27). -/
def Status.code : Status → BitVec 2
  | .running => 0b00 | .halted => 0b01 | .invalidAddress => 0b10 | .invalidInstruction => 0b11

/-! ## The memory array -/

/-- Strictly rising addresses from `lo` on, every listed byte non-zero. -/
def Memory.wfFrom (lo : Nat) : Memory → Bool
  | [] => true
  | c :: m => decide (lo ≤ c.1) && (c.2 != 0#8) && Memory.wfFrom (c.1 + 1) m

/-- The canonical form of a memory: equal memories are equal lists. -/
def Memory.wf (m : Memory) : Bool := Memory.wfFrom 0 m

/-- Every listed address is below `n`. -/
def Memory.within (n : Nat) (m : Memory) : Bool := m.all fun c => decide (c.1 < n)

/-- What an unlisted address reads as: the memory array is zero-initialized (R40). -/
def Memory.unlisted : Byte := 0#8

/-- The byte at address `a`. -/
def Memory.read : Memory → Nat → Byte
  | [], _ => Memory.unlisted
  | c :: m, a => if c.1 = a then c.2 else Memory.read m a

/-- The entry of byte `v` at address `a`: none if `v` is what an unlisted address reads as. -/
def Memory.entry (a : Nat) (v : Byte) : Memory := if v = Memory.unlisted then [] else [(a, v)]

/-- Set the byte at address `a`, keeping the canonical form. -/
def Memory.write : Memory → Nat → Byte → Memory
  | [], a, v => Memory.entry a v
  | c :: m, a, v =>
    if a < c.1 then Memory.entry a v ++ c :: m
    else if a = c.1 then Memory.entry a v ++ m
    else c :: Memory.write m a v

/-- Set the bytes from address `a` on. -/
def Memory.writeBytes : Memory → Nat → List Byte → Memory
  | m, _, [] => m
  | m, a, v :: vs => Memory.writeBytes (Memory.write m a v) (a + 1) vs

/-- `InBounds(a, n)` for a memory of `size` bytes (R42): the address word read as signed, the sum taken over
the integers. -/
def inBounds (size : Nat) (a : Word) (n : Nat) : Bool :=
  decide (0 ≤ a.toInt ∧ a.toInt + (n : Int) ≤ (size : Int))

/-- `InBounds(a, n)` in a state (R42). -/
def State.inBounds (s : State) (a : Word) (n : Nat) : Bool := Machine.inBounds s.memSize.val a n

/-- The byte of memory at address `a` of a state. -/
def State.byteAt (s : State) (a : Nat) : Byte := s.mem.read a

/-! ## The memory port controller (R50, R51) -/

/-- The kinds of port request (R50). -/
inductive AccessKind where
  | fetch | read | write
  deriving DecidableEq, Repr

/-- The access widths, 1 and 4 bytes (R50, R55). -/
inductive Width where
  | byte | word
  deriving DecidableEq, Repr

/-- A width in bytes. -/
def Width.bytes : Width → Nat
  | .byte => 1 | .word => 4

/-- A request to the port; `wdata` is read by a write only, its low `8*w` bits (R50). -/
structure PortRequest where
  kind : AccessKind
  addr : Word
  width : Width
  wdata : Word
  deriving DecidableEq, Repr

/-- The port's response (R51): the data of a fetch or read, a write done, or out of bounds. -/
inductive PortResponse where
  | data (rdata : Word) | done | oob
  deriving DecidableEq, Repr

/-- The value of `w` bytes at byte address `b`, little-endian, zero-extended to a word (R43, R44). -/
def Memory.load (m : Memory) (b : Nat) : Width → Word
  | .byte => (m.read b).setWidth 32
  | .word => wordOfBytes (m.read b) (m.read (b + 1)) (m.read (b + 2)) (m.read (b + 3))

/-- The low `8*w` bits of `v` stored at byte address `b`, little-endian (R45, R46). -/
def Memory.store (m : Memory) (b : Nat) (v : Word) : Width → Memory
  | .byte => m.write b (byteOfWord v 0)
  | .word => m.writeBytes b (bytesOfWord v)

/-- Serve one request (R51): an out-of-bounds request reads and writes nothing (R47). In bounds, `sint(addr)`
is `uint(addr)`, the key of the memory list. -/
def memPort (q : PortRequest) (s : State) : PortResponse × State :=
  if s.inBounds q.addr q.width.bytes then
    match q.kind with
    | .fetch | .read => (.data (s.mem.load q.addr.toNat q.width), s)
    | .write => (.done, { s with mem := s.mem.store q.addr.toNat q.wdata q.width })
  else (.oob, s)

/-- `MemRead(a, 4)` (R44); none when the port answers `oob`. -/
def memRead32 (a : Word) (s : State) : Option Word :=
  match (memPort ⟨.read, a, .word, 0⟩ s).1 with
  | .data v => some v
  | _ => none

/-- `MemRead(a, 1)` (R43); none when the port answers `oob`. -/
def memRead8 (a : Word) (s : State) : Option Byte :=
  match (memPort ⟨.read, a, .byte, 0⟩ s).1 with
  | .data v => some (v.setWidth 8)
  | _ => none

/-- One byte of an instruction fetch (R50, R53); none when the port answers `oob`. -/
def fetchByte (a : Word) (s : State) : Option Byte :=
  match (memPort ⟨.fetch, a, .byte, 0⟩ s).1 with
  | .data v => some (v.setWidth 8)
  | _ => none

/-- `MemWrite(a, 4, v)` (R46). -/
def memWrite32 (a v : Word) (s : State) : State := (memPort ⟨.write, a, .word, v⟩ s).2

/-- `MemWrite(a, 1, v)` (R45). -/
def memWrite8 (a : Word) (v : Byte) (s : State) : State := (memPort ⟨.write, a, .byte, v.setWidth 32⟩ s).2

/-! ## The I/O ports (R64, R65) -/

/-- Item `k` of what a state lists of the input; none at its end (R64). -/
def inputItem (q : InputSeq) (k : Nat) : Option IoItem :=
  match q.items[k]? with
  | some item => some item
  | none => if q.endless then some (Config.endlessItem k) else none

/-- The input port of a run on `q`: the state lists `q` as far as the item at the cursor, so that the next step can
read it (R64). -/
def State.offer (q : Input) (s : State) : State := { s with input := q.listed (s.cursor + 1) }

/-- The item the input port will deliver next; none is EOF (R30, R64). -/
def State.nextItem (s : State) : Option IoItem := inputItem s.input s.cursor

/-- The byte a `BYTE` read is given by an item (R64): a byte item's byte; of a word item, a free value. -/
def IoItem.asByte (k : Nat) : IoItem → Byte
  | .byte b => b
  | .word w => Config.byteOfWordItem k w

/-- The word an `INT` read is given by an item (R64): a word item's word; of a byte item, a free value. -/
def IoItem.asWord (k : Nat) : IoItem → Word
  | .byte b => Config.wordOfByteItem k b
  | .word w => w

/-- Move the input cursor past the item just delivered (R64). -/
def State.advanceCursor (s : State) : State := { s with cursor := s.cursor + 1 }

/-- `InRead(BYTE)` (R64): none is EOF, which moves nothing. -/
def inReadByte (s : State) : Option Byte × State :=
  match s.nextItem with
  | some item => (some (IoItem.asByte s.cursor item), s.advanceCursor)
  | none => (none, s)

/-- `InRead(INT)` (R64): none is EOF, which moves nothing. -/
def inReadInt (s : State) : Option Word × State :=
  match s.nextItem with
  | some item => (some (IoItem.asWord s.cursor item), s.advanceCursor)
  | none => (none, s)

/-- `OutWrite(item)` (R65). -/
def outWrite (item : IoItem) (s : State) : State := { s with output := s.output ++ [item] }

/-! ## Taking an exception -/

/-- The terminal status a cause sets (R201, R202). -/
def Cause.status : Cause → Status
  | .invalidAddress => .invalidAddress
  | .invalidInstruction => .invalidInstruction

/-- TAKING AN EXCEPTION, in full (R205, R109, R203): set `status`; nothing else changes, so `pc` stays at the
instruction that raised. No state is saved and there is no handler; nor is there a return (R206): no
instruction leaves a terminal status. -/
def takeException (c : Cause) (s : State) : Result := .next (s.setStatus c.status)

/-- What a step answers in a terminal status: the FSM takes none (R102). -/
def noStep (_ : State) : Result := .fault .runOver

/-! ## Check phase, then commit phase (R10) -/

/-- Commit if the check passed; otherwise `raise InvalidAddress()`. -/
def commitIf (ok : Bool) (commit : State → State) (s : State) : Result :=
  if ok then .next (commit s) else takeException .invalidAddress s

/-- Commit with a value the check phase read; `raise InvalidAddress()` if that read was out of bounds. -/
def commitWith {α : Type} (read : Option α) (commit : α → State → State) (s : State) : Result :=
  match read with
  | some v => .next (commit v s)
  | none => takeException .invalidAddress s

end Sys2Proof.Machine
end

