-- ==== Sys2Proof/Machine/Flags.lean ====
section
/-! DEFINITION. The ALU with its three flags (43_alu.md R135 to R143) and the jump conditions over the flags
(44_jumps.md R156 to R163). -/

namespace Sys2Proof.Machine

/-- The ALU operations (R135). -/
inductive AluOp where
  | add | sub | and | xor | mul
  deriving DecidableEq, Repr

/-- What the ALU returns: the 32-bit result and the three flags (R135). -/
structure AluOut where
  result : Word
  zf : Bool
  sf : Bool
  of : Bool
  deriving DecidableEq, Repr

/-- The result, wrapped to 32 bits: `f(valB, valA)` in that order (R135, R143). -/
def aluResult (f : AluOp) (valB valA : Word) : Word :=
  match f with
  | .add => valB + valA
  | .sub => valB - valA
  | .and => valB &&& valA
  | .xor => valB ^^^ valA
  | .mul => BitVec.ofInt 32 (valB.toInt * valA.toInt)

/-- `ZF = (result = 0)` (R136). -/
def zeroFlag (r : Word) : Bool := decide (r = 0#32)

/-- `SF = (sint(result) < 0)` (R136). -/
def signFlag (r : Word) : Bool := decide (r.toInt < 0)

/-- OF of `addl`: equal operand signs that the result's sign differs from, 0 counting as non-negative (R137). -/
def addOverflow (a b r : Word) : Bool :=
  decide ((a.toInt < 0 ∧ b.toInt < 0 ∧ r.toInt ≥ 0) ∨ (a.toInt ≥ 0 ∧ b.toInt ≥ 0 ∧ r.toInt < 0))

/-- OF of `subl` and `cmpl`: the source's formula, with its strict comparisons (R138, R142). -/
def subOverflow (a b r : Word) : Bool :=
  decide ((b.toInt < 0 ∧ a.toInt > 0 ∧ r.toInt > 0) ∨ (b.toInt > 0 ∧ a.toInt < 0 ∧ r.toInt < 0))

/-- OF of `mull`: the exact product is not the sign-extended low 32 bits (R141). -/
def mulOverflow (a b r : Word) : Bool := decide (b.toInt * a.toInt ≠ r.toInt)

/-- OF of each operation; `and` and `xor` clear it (R137 to R141). -/
def aluOverflow (f : AluOp) (valB valA r : Word) : Bool :=
  match f with
  | .add => addOverflow valA valB r
  | .sub => subOverflow valA valB r
  | .and => false
  | .xor => false
  | .mul => mulOverflow valA valB r

/-- The ALU (R135): the result and the flags it sets. -/
def alu (f : AluOp) (valB valA : Word) : AluOut :=
  let r := aluResult f valB valA
  { result := r, zf := zeroFlag r, sf := signFlag r, of := aluOverflow f valB valA r }

/-- `jle`: `(SF XOR OF) OR ZF` (R157). -/
def condLe (zf sf of : Bool) : Bool := (sf ^^ of) || zf

/-- `jl`: `SF XOR OF` (R158). -/
def condL (sf of : Bool) : Bool := sf ^^ of

/-- `je`: `ZF` (R159). -/
def condE (zf : Bool) : Bool := zf

/-- `jne`: `NOT ZF` (R160). -/
def condNe (zf : Bool) : Bool := !zf

/-- `jge`: `NOT (SF XOR OF)` (R161). -/
def condGe (sf of : Bool) : Bool := !(sf ^^ of)

/-- `jg`: `NOT (SF XOR OF) AND NOT ZF` (R162). -/
def condG (zf sf of : Bool) : Bool := !(sf ^^ of) && !zf

end Sys2Proof.Machine
end

