-- ==== Sys2Proof/Machine/Operands.lean ====
section
/-! DEFINITION. The operand forms: the one addressing mode base + displacement, the two stack slots, and the
commits several instructions share (20_memory.md R48; 43_alu.md R135; 44_jumps.md R155). -/

namespace Sys2Proof.Machine

/-- The effective address `x[base] + disp`, modulo 2^32 (R48). -/
def effAddr (base : Reg) (disp : Word) (s : State) : Word := s.reg base + disp

/-- The slot a push stores to: `x[4] - 4`, modulo 2^32 (R170, R172). -/
def pushSlot (s : State) : Word := s.reg .esp - 4#32

/-- The slot a pop loads from: `x[4]` (R171, R173). -/
def popSlot (s : State) : Word := s.reg .esp

/-- `pc <- pc + L`: the address of the byte after an instruction of length `len` (R13 `valP`, R26). -/
def advancePc (len : Nat) (s : State) : State := s.setPc (s.pc + BitVec.ofNat 32 len)

/-- The ALU applied to `valB = x[rB]`, `valA = x[rA]` (R135). -/
def aluOf (f : AluOp) (rA rB : Reg) (s : State) : AluOut := alu f (s.reg rB) (s.reg rA)

/-- Commit of the five ALU instructions that write `x[rB]` (R137 to R141). -/
def commitAlu (f : AluOp) (rA rB : Reg) (s : State) : State :=
  let out := aluOf f rA rB s
  advancePc 2 ((s.setReg rB out.result).setFlags out.zf out.sf out.of)

/-- Commit of a compare: the flags of the subtraction, no register (R142). -/
def commitFlags (f : AluOp) (rA rB : Reg) (s : State) : State :=
  let out := aluOf f rA rB s
  advancePc 2 (s.setFlags out.zf out.sf out.of)

/-- The common jump mechanism (R155): a taken jump checks its target as a one-byte address, one that is not
taken checks nothing. -/
def jumpIf (taken : Bool) (dest : Word) (s : State) : Result :=
  commitIf (!taken || s.inBounds dest 1) (fun s => if taken then s.setPc dest else advancePc 5 s) s

/-- `ZF` of a read and the store of what it delivered: nothing is stored at EOF (R180, R181). -/
def commitInput {α : Type} (item : Option α) (store : α → State → State) (s : State) : State :=
  match item with
  | none => s.setZf true
  | some v => (store v s).setZf false

end Sys2Proof.Machine
end

