-- ==== Sys2Proof/Machine/Alu.lean ====
section
/-! DEFINITION. The arithmetic-logic instructions (43_alu.md). None can raise (section 2). -/

namespace Sys2Proof.Machine

/-- `addl %rA, %rB` (R137). -/
def execAddl (rA rB : Reg) (s : State) : Result := .next (commitAlu .add rA rB s)

/-- `subl %rA, %rB` (R138): `x[rB] - x[rA]`. -/
def execSubl (rA rB : Reg) (s : State) : Result := .next (commitAlu .sub rA rB s)

/-- `andl %rA, %rB` (R139). -/
def execAndl (rA rB : Reg) (s : State) : Result := .next (commitAlu .and rA rB s)

/-- `xorl %rA, %rB` (R140). -/
def execXorl (rA rB : Reg) (s : State) : Result := .next (commitAlu .xor rA rB s)

/-- `mull %rA, %rB` (R141). -/
def execMull (rA rB : Reg) (s : State) : Result := .next (commitAlu .mul rA rB s)

/-- `cmpl %rA, %rB` (R142): the flags of `subl`, no register. -/
def execCmpl (rA rB : Reg) (s : State) : Result := .next (commitFlags .sub rA rB s)

end Sys2Proof.Machine
end

