-- ==== Sys2Proof/Machine/Io.lean ====
section
/-! DEFINITION. Input and output instructions (46_io.md). The base register is rA. -/

namespace Sys2Proof.Machine

/-- `readb D(%rA)` (R180): the bounds check comes before the read of the input. -/
def execReadb (rA : Reg) (disp : Word) (s : State) : Result :=
  let ea := effAddr rA disp s
  commitIf (s.inBounds ea 1)
    (fun s => let (item, s) := inReadByte s; advancePc 6 (commitInput item (memWrite8 ea) s)) s

/-- `readl D(%rA)` (R181). -/
def execReadl (rA : Reg) (disp : Word) (s : State) : Result :=
  let ea := effAddr rA disp s
  commitIf (s.inBounds ea 4)
    (fun s => let (item, s) := inReadInt s; advancePc 6 (commitInput item (memWrite32 ea) s)) s

/-- `writeb D(%rA)` (R182). -/
def execWriteb (rA : Reg) (disp : Word) (s : State) : Result :=
  commitWith (memRead8 (effAddr rA disp s) s) (fun v s => advancePc 6 (outWrite (.byte v) s)) s

/-- `writel D(%rA)` (R183). -/
def execWritel (rA : Reg) (disp : Word) (s : State) : Result :=
  commitWith (memRead32 (effAddr rA disp s) s) (fun v s => advancePc 6 (outWrite (.word v) s)) s

end Sys2Proof.Machine
end

