-- ==== Sys2Proof/Machine/Jumps.lean ====
section
/-! DEFINITION. The seven jumps (44_jumps.md): the common mechanism R155 with each jump's condition. -/

namespace Sys2Proof.Machine

/-- `jmp T` (R156). -/
def execJmp (dest : Word) (s : State) : Result := jumpIf true dest s

/-- `jle T` (R157). -/
def execJle (dest : Word) (s : State) : Result := jumpIf (condLe s.zf s.sf s.of) dest s

/-- `jl T` (R158). -/
def execJl (dest : Word) (s : State) : Result := jumpIf (condL s.sf s.of) dest s

/-- `je T` (R159). -/
def execJe (dest : Word) (s : State) : Result := jumpIf (condE s.zf) dest s

/-- `jne T` (R160). -/
def execJne (dest : Word) (s : State) : Result := jumpIf (condNe s.zf) dest s

/-- `jge T` (R161). -/
def execJge (dest : Word) (s : State) : Result := jumpIf (condGe s.sf s.of) dest s

/-- `jg T` (R162). -/
def execJg (dest : Word) (s : State) : Result := jumpIf (condG s.zf s.sf s.of) dest s

end Sys2Proof.Machine
end

