-- ==== Sys2Proof/Machine/Moves.lean ====
section
/-! DEFINITION. Register and memory moves (42_moves.md). -/

namespace Sys2Proof.Machine

/-- `rrmovl %rA, %rB` (R125). -/
def execRrmovl (rA rB : Reg) (s : State) : Result := .next (advancePc 2 (s.setReg rB (s.reg rA)))

/-- `irmovl $V, %rB` (R126). -/
def execIrmovl (rB : Reg) (imm : Word) (s : State) : Result := .next (advancePc 6 (s.setReg rB imm))

/-- `rmmovl %rA, D(%rB)` (R127): 4-byte store at `x[rB] + D`. -/
def execRmmovl (rA rB : Reg) (disp : Word) (s : State) : Result :=
  let ea := effAddr rB disp s
  commitIf (s.inBounds ea 4) (fun s => advancePc 6 (memWrite32 ea (s.reg rA) s)) s

/-- `mrmovl D(%rB), %rA` (R128): 4-byte load from `x[rB] + D`. -/
def execMrmovl (rA rB : Reg) (disp : Word) (s : State) : Result :=
  commitWith (memRead32 (effAddr rB disp s) s) (fun v s => advancePc 6 (s.setReg rA v)) s

end Sys2Proof.Machine
end

