-- ==== Sys2Proof/Machine/Movsbl.lean ====
section
/-! DEFINITION. The sign-extending byte load (47_movsbl.md). -/

namespace Sys2Proof.Machine

/-- `movsbl D(%rB), %rA` (R190): the byte at `x[rB] + D`, its bit 7 copied into bits 31..8. -/
def execMovsbl (rA rB : Reg) (disp : Word) (s : State) : Result :=
  commitWith (memRead8 (effAddr rB disp s) s) (fun b s => advancePc 6 (s.setReg rA (b.signExtend 32))) s

end Sys2Proof.Machine
end

