-- ==== Sys2Proof/Machine/NopHalt.lean ====
section
/-! DEFINITION. nop and halt (41_nop_halt.md). -/

namespace Sys2Proof.Machine

/-- `nop` (R120). -/
def execNop (s : State) : Result := .next (advancePc 1 s)

/-- `halt` (R121): status HALTED and `pc + 1`. -/
def execHalt (s : State) : Result := .next (advancePc 1 (s.setStatus .halted))

end Sys2Proof.Machine
end

