-- ==== Sys2Proof/Machine/Stack.lean ====
section
/-! DEFINITION. Call, return and the stack instructions (45_call_stack.md). Each commit is the rule's list of
writes in its order, so that `pushl %esp` and `popl %esp` come out as R172 and R173 say. -/

namespace Sys2Proof.Machine

/-- `call T` (R170): the target check, then the stack-slot check, then the writes. -/
def execCall (dest : Word) (s : State) : Result :=
  let sp := pushSlot s
  commitIf (s.inBounds dest 1 && s.inBounds sp 4)
    (fun s => (memWrite32 sp (s.pc + 5#32) (s.setReg .esp sp)).setPc dest) s

/-- `ret` (R171): the popped address is not checked here; the next fetch checks it. -/
def execRet (s : State) : Result :=
  commitWith (memRead32 (popSlot s) s)
    (fun v s => let s := s.setPc v; s.setReg .esp (s.reg .esp + 4#32)) s

/-- `pushl %rA` (R172): `x[rA]` is read after the decrement of `esp`. -/
def execPushl (rA : Reg) (s : State) : Result :=
  let sp := pushSlot s
  commitIf (s.inBounds sp 4)
    (fun s => let s := s.setReg .esp sp; advancePc 2 (memWrite32 (s.reg .esp) (s.reg rA) s)) s

/-- `popl %rA` (R173): `esp` is read for the increment after the write of `x[rA]`. -/
def execPopl (rA : Reg) (s : State) : Result :=
  commitWith (memRead32 (popSlot s) s)
    (fun v s => let s := s.setReg rA v; advancePc 2 (s.setReg .esp (s.reg .esp + 4#32))) s

end Sys2Proof.Machine
end

