-- ==== Sys2Proof/Machine/Dispatch.lean ====
section
/-! DEFINITION. `exec`: the meaning of each instruction (40_fsm.md R108, R110 `Exec`), one arm per constructor. -/

namespace Sys2Proof.Machine

def exec (i : Instr) (s : State) : Host.Outcome State Fault Refusal :=
  match i with
  -- 41_nop_halt.md
  | .nop => Sys2Proof.Machine.execNop s
  | .halt => Sys2Proof.Machine.execHalt s
  -- 42_moves.md
  | .rrmovl rA rB => Sys2Proof.Machine.execRrmovl rA rB s
  | .irmovl rB imm => Sys2Proof.Machine.execIrmovl rB imm s
  | .rmmovl rA rB disp => Sys2Proof.Machine.execRmmovl rA rB disp s
  | .mrmovl rA rB disp => Sys2Proof.Machine.execMrmovl rA rB disp s
  -- 43_alu.md
  | .addl rA rB => Sys2Proof.Machine.execAddl rA rB s
  | .subl rA rB => Sys2Proof.Machine.execSubl rA rB s
  | .andl rA rB => Sys2Proof.Machine.execAndl rA rB s
  | .xorl rA rB => Sys2Proof.Machine.execXorl rA rB s
  | .mull rA rB => Sys2Proof.Machine.execMull rA rB s
  | .cmpl rA rB => Sys2Proof.Machine.execCmpl rA rB s
  -- 44_jumps.md
  | .jmp dest => Sys2Proof.Machine.execJmp dest s
  | .jle dest => Sys2Proof.Machine.execJle dest s
  | .jl dest => Sys2Proof.Machine.execJl dest s
  | .je dest => Sys2Proof.Machine.execJe dest s
  | .jne dest => Sys2Proof.Machine.execJne dest s
  | .jge dest => Sys2Proof.Machine.execJge dest s
  | .jg dest => Sys2Proof.Machine.execJg dest s
  -- 45_call_stack.md
  | .call dest => Sys2Proof.Machine.execCall dest s
  | .ret => Sys2Proof.Machine.execRet s
  | .pushl rA => Sys2Proof.Machine.execPushl rA s
  | .popl rA => Sys2Proof.Machine.execPopl rA s
  -- 46_io.md
  | .readb rA disp => Sys2Proof.Machine.execReadb rA disp s
  | .readl rA disp => Sys2Proof.Machine.execReadl rA disp s
  | .writeb rA disp => Sys2Proof.Machine.execWriteb rA disp s
  | .writel rA disp => Sys2Proof.Machine.execWritel rA disp s
  -- 47_movsbl.md
  | .movsbl rA rB disp => Sys2Proof.Machine.execMovsbl rA rB disp s

end Sys2Proof.Machine
end

