-- ==== Sys2Proof/Machine/Fetch.lean ====
section
/-! DEFINITION. The FETCH and DECODE phases of a step (40_fsm.md R103 to R107), and the placing of a program's
bytes where the next fetch reads them. -/

namespace Sys2Proof.Machine

/-- The `n` instruction bytes from `a` on, one port request each (R50, R53); none if one is out of bounds. -/
def fetchBytes : Nat → Word → State → Option (List Byte)
  | 0, _, _ => some []
  | n + 1, a, s =>
    match fetchByte a s with
    | none => none
    | some b => (fetchBytes n (a + 1#32) s).map (b :: ·)

/-- The cause a refusal of the decoder raises (R104, R105, R107). -/
def causeOf : DecodeError → Cause
  | .truncated => .invalidAddress
  | .unknownOpcode => .invalidInstruction
  | .badRegister => .invalidInstruction

/-- FETCH and DECODE: the instruction at `pc`, or the cause raised, in the order of R111. -/
def fetchInstr (s : State) : Except Cause Instr :=
  match fetchByte s.pc s with
  | none => .error .invalidAddress                              -- R103
  | some op =>
    match encodedLength op with
    | none => .error .invalidInstruction                        -- R104
    | some len =>
      if s.inBounds s.pc len then
        match fetchBytes len s.pc s with
        | none => .error .invalidAddress
        | some bs =>
          match decode bs with                                  -- R106, R107
          | .ok (i, _) => .ok i
          | .error e => .error (causeOf e)
      else .error .invalidAddress                               -- R105

/-- A state that fetches at its `pc`: a running state whose memory holds six bytes there. A state that is so
already is left alone; otherwise the run is put back to RUNNING, `pc` moves to 0 if no memory could hold six
bytes at it, and `MEM_SIZE` grows to hold them (log entry 16). -/
def State.readyToFetch (s : State) : State :=
  let pc := if s.pc.toNat + 6 < 2 ^ 31 then s.pc else 0#32
  { s with status := .running, pc := pc, memSize := Fin.ofNat (2 ^ 31) (max s.memSize.val (pc.toNat + 6)) }

/-- Place `bs` at `pc`. -/
def State.placeAtPc (s : State) (bs : List Byte) : State :=
  { s with mem := s.mem.writeBytes s.pc.toNat bs }

end Sys2Proof.Machine
end

