-- ==== Sys2Proof/Machine/Step.lean ====
section
/-! DEFINITION. One step of the control FSM (40_fsm.md R110), and `withFetchWord`. -/

namespace Sys2Proof.Machine

/-- `Step(s)` (R110): FETCH and DECODE, then the instruction's own check and commit phases. -/
def step (s : State) : Host.Outcome State Fault Refusal :=
  match s.status with
  | .running =>
    match fetchInstr s with
    | .error c => takeException c s
    | .ok i => exec i s
  | _ => noStep s

/-- `s` with the opcode-table word `w` of `nbits` bits where the next step fetches (log entries 2 and 16). -/
def State.withFetchWord (s : State) (nbits w : Nat) : State :=
  s.readyToFetch.placeAtPc (tableBytes nbits w)

end Sys2Proof.Machine
end

