-- ==== Sys2Proof/Machine/Load.lean ====
section
/-! DEFINITION. Program load, the host's duty before a run (70_reset_and_hazards.md R220 to R226): the
directives of an object file, already parsed (text and number parsing are out of scope, 00_scope.md R4),
applied in file order, give the parameters of the run or a load error. -/

namespace Sys2Proof.Machine

/-- A parsed directive (R221). The numbers are the 32-bit values `hexToInt` and the decimal parser give. -/
inductive Directive where
  | size (n : Word)
  | text (addr : Word) (bytes : List Byte)
  | byte (addr : Word) (b : Byte)
  | long (addr : Word) (v : Word)
  deriving DecidableEq, Repr

/-- Why no run takes place (R209, R222 to R224, R226). -/
inductive LoadError where
  /-- `.size` negative, or larger than the host can allocate (R222). -/
  | allocationError
  /-- A `.text`, `.byte` or `.long` outside memory (R223). -/
  | outOfBounds
  /-- No `.size`, or none before a directive that writes memory (R222, R224). -/
  | sizeMissing
  /-- A second `.size` (R222). -/
  | sizeRepeated
  /-- No `.text` (R224). -/
  | textMissing
  /-- A second `.text` (R224). -/
  | textRepeated
  deriving DecidableEq, Repr

/-- A load in progress, from its `.size` on. -/
structure Loading where
  memSize : MemSize
  mem : Memory
  entry : Option Word
  deriving DecidableEq, Repr

/-- Write `bs` from address `a` on, or fail with `OutOfBounds`; no bytes at all overflow nothing (R223). -/
def Loading.poke (l : Loading) (a : Word) (bs : List Byte) : Except LoadError Loading :=
  if bs.isEmpty || inBounds l.memSize.val a bs.length then .ok { l with mem := l.mem.writeBytes a.toNat bs }
  else .error .outOfBounds

/-- Apply one directive (R222 to R224). `hostLimit` is the largest memory the host can allocate. DESIGN CHOICE (log
entry 17): which error is reported where two apply. The spec gives no order among them; here a repeated `.size` or
`.text` and a missing `.size` are found before the size or the bounds of that directive are looked at. -/
def loadDirective (hostLimit : Nat) (l : Option Loading) (d : Directive) : Except LoadError Loading :=
  match d, l with
  | .size n, none =>
    if 0 ≤ n.toInt ∧ n.toNat ≤ hostLimit then .ok ⟨Fin.ofNat (2 ^ 31) n.toNat, [], none⟩
    else .error .allocationError
  | .size _, some _ => .error .sizeRepeated
  | _, none => .error .sizeMissing
  | .text a bs, some l =>
    match l.entry with
    | some _ => .error .textRepeated
    | none => Loading.poke { l with entry := some a } a bs
  | .byte a b, some l => l.poke a [b]
  | .long a v, some l => l.poke a (bytesOfWord v)

/-- Apply directives in file order (R221). The first that fails gives the error (DESIGN CHOICE, log entry 17). -/
def loadDirectives (hostLimit : Nat) : Option Loading → List Directive → Except LoadError (Option Loading)
  | l, [] => .ok l
  | l, d :: ds =>
    match loadDirective hostLimit l d with
    | .ok l' => loadDirectives hostLimit (some l') ds
    | .error e => .error e

/-- Load a program: the parameters of its run (R220 (1), (2); `ENTRY` is the `.text` address, R224). The state
the run begins in is `State.ofRun` of them (R220 (3)). An error of a directive is reported before a missing one, and a
missing `.size` before a missing `.text` (DESIGN CHOICE, log entry 17). -/
def loadProgram (hostLimit : Nat) (ds : List Directive) (input : Input) : Except LoadError RunParams :=
  match loadDirectives hostLimit none ds with
  | .error e => .error e
  | .ok none => .error .sizeMissing
  | .ok (some l) =>
    match l.entry with
    | none => .error .textMissing
    | some entry => .ok ⟨l.memSize, entry, l.mem, input⟩

end Sys2Proof.Machine
end

