-- ==== Sys2Proof/Machine/Run.lean ====
section
/-! DEFINITION. Runs with any `INPUT` (00_scope.md R6; 40_fsm.md R113): every step is a function of the state and of
the next item of the sequence, which may be infinite. -/

namespace Sys2Proof.Machine

/-- One step of a run on `q` (R113): a step of the state at whose input port `q` stands. -/
def stepOn (q : Input) (s : State) : Result := step (s.offer q)

/-- The state after at most `n` steps of a run on `q`: it stays where no step is taken (R102, R113). -/
def State.runOn (q : Input) : Nat → State → State
  | 0, s => s
  | n + 1, s =>
    match stepOn q s with
    | .next t => State.runOn q n t
    | .fault _ => s
    | .refused _ => s

/-- The state after at most `n` steps of the run with parameters `p` (R6, R113, R220). -/
def runState (p : RunParams) (n : Nat) : State := (State.ofRun p).runOn p.input n

end Sys2Proof.Machine
end

