-- ==== Sys2Proof/Safety.lean ====
section
/-! DEFINITION. The terms claims are stated in: the spec's own tables about all instructions (10_state.md R23,
R26, R29; 20_memory.md R52; 60_exceptions.md R201), what it is for the bytes at `pc` to be an instruction, the
invariant, and runs (40_fsm.md R113). -/

namespace Sys2Proof

open Machine

/-- The "writes" column of R23. -/
def Instr.writesReg (i : Instr) (r : Reg) : Bool :=
  match i with
  | .nop | .halt => false
  | .rrmovl _ b => r == b
  | .irmovl b _ => r == b
  | .rmmovl _ _ _ => false
  | .mrmovl a _ _ => r == a
  | .movsbl a _ _ => r == a
  | .addl _ b => r == b
  | .subl _ b => r == b
  | .andl _ b => r == b
  | .xorl _ b => r == b
  | .mull _ b => r == b
  | .cmpl _ _ => false
  | .jmp _ | .jle _ | .jl _ | .je _ | .jne _ | .jge _ | .jg _ => false
  | .call _ => r == .esp
  | .ret => r == .esp
  | .pushl _ => r == .esp
  | .popl a => r == a || r == .esp
  | .readb _ _ | .readl _ _ | .writeb _ _ | .writel _ _ => false

/-- The instructions that write SF and OF (R29): the ALU six. -/
def Instr.writesSfOf (i : Instr) : Bool :=
  match i with
  | .addl _ _ | .subl _ _ | .andl _ _ | .xorl _ _ | .mull _ _ | .cmpl _ _ => true
  | .nop | .halt | .rrmovl _ _ | .irmovl _ _ | .rmmovl _ _ _ | .mrmovl _ _ _ | .movsbl _ _ _ => false
  | .jmp _ | .jle _ | .jl _ | .je _ | .jne _ | .jge _ | .jg _ | .call _ | .ret | .pushl _ | .popl _ => false
  | .readb _ _ | .readl _ _ | .writeb _ _ | .writel _ _ => false

/-- The instructions that write ZF (R29): the ALU six, readb and readl. -/
def Instr.writesZf (i : Instr) : Bool :=
  match i with
  | .addl _ _ | .subl _ _ | .andl _ _ | .xorl _ _ | .mull _ _ | .cmpl _ _ | .readb _ _ | .readl _ _ => true
  | .nop | .halt | .rrmovl _ _ | .irmovl _ _ | .rmmovl _ _ _ | .mrmovl _ _ _ | .movsbl _ _ _ => false
  | .jmp _ | .jle _ | .jl _ | .je _ | .jne _ | .jge _ | .jg _ | .call _ | .ret | .pushl _ | .popl _ => false
  | .writeb _ _ | .writel _ _ => false

/-- What a jump checks: its target as a one-byte address, if it is taken (R155). -/
def jumpChecks (taken : Bool) (dest : Word) : List (Word × Nat) := if taken then [(dest, 1)] else []

/-- The addresses and widths an instruction's check phase tests, the causes of R201 beyond the fetch. -/
def Instr.checks (i : Instr) (s : State) : List (Word × Nat) :=
  match i with
  | .nop | .halt | .rrmovl _ _ | .irmovl _ _ => []
  | .addl _ _ | .subl _ _ | .andl _ _ | .xorl _ _ | .mull _ _ | .cmpl _ _ => []
  | .rmmovl _ b d => [(effAddr b d s, 4)]
  | .mrmovl _ b d => [(effAddr b d s, 4)]
  | .movsbl _ b d => [(effAddr b d s, 1)]
  | .jmp t => jumpChecks true t
  | .jle t => jumpChecks (condLe s.zf s.sf s.of) t
  | .jl t => jumpChecks (condL s.sf s.of) t
  | .je t => jumpChecks (condE s.zf) t
  | .jne t => jumpChecks (condNe s.zf) t
  | .jge t => jumpChecks (condGe s.sf s.of) t
  | .jg t => jumpChecks (condG s.zf s.sf s.of) t
  | .call t => [(t, 1), (pushSlot s, 4)]
  | .pushl _ => [(pushSlot s, 4)]
  | .ret => [(popSlot s, 4)]
  | .popl _ => [(popSlot s, 4)]
  | .readb a d => [(effAddr a d s, 1)]
  | .readl a d => [(effAddr a d s, 4)]
  | .writeb a d => [(effAddr a d s, 1)]
  | .writel a d => [(effAddr a d s, 4)]

/-- Every address an instruction checks is in bounds: no cause of R201 beyond the fetch applies. -/
def Instr.addressOk (i : Instr) (s : State) : Bool := (i.checks s).all fun c => s.inBounds c.1 c.2

/-- The "data writes" column of R52: the address and width an instruction stores to. -/
def Instr.storeSite (i : Instr) (s : State) : Option (Word × Nat) :=
  match i with
  | .rmmovl _ b d => some (effAddr b d s, 4)
  | .pushl _ => some (pushSlot s, 4)
  | .call _ => some (pushSlot s, 4)
  | .readb a d => if s.nextItem.isSome then some (effAddr a d s, 1) else none
  | .readl a d => if s.nextItem.isSome then some (effAddr a d s, 4) else none
  | .nop | .halt | .rrmovl _ _ | .irmovl _ _ | .mrmovl _ _ _ | .movsbl _ _ _ | .writeb _ _ | .writel _ _ => none
  | .addl _ _ | .subl _ _ | .andl _ _ | .xorl _ _ | .mull _ _ | .cmpl _ _ => none
  | .jmp _ | .jle _ | .jl _ | .je _ | .jne _ | .jge _ | .jg _ | .ret | .popl _ => none

/-- Where `pc` goes when an instruction completes (R26): `pc + L` (the lengths of R78), or the target of a taken
jump, a `call` or a `ret`. -/
def Instr.nextPc (i : Instr) (s : State) : Word :=
  match i with
  | .nop | .halt => s.pc + 1#32
  | .rrmovl _ _ | .addl _ _ | .subl _ _ | .andl _ _ | .xorl _ _ | .mull _ _ | .cmpl _ _ => s.pc + 2#32
  | .pushl _ | .popl _ => s.pc + 2#32
  | .irmovl _ _ | .rmmovl _ _ _ | .mrmovl _ _ _ | .movsbl _ _ _ => s.pc + 6#32
  | .readb _ _ | .readl _ _ | .writeb _ _ | .writel _ _ => s.pc + 6#32
  | .jmp t => t
  | .jle t => if condLe s.zf s.sf s.of then t else s.pc + 5#32
  | .jl t => if condL s.sf s.of then t else s.pc + 5#32
  | .je t => if condE s.zf then t else s.pc + 5#32
  | .jne t => if condNe s.zf then t else s.pc + 5#32
  | .jge t => if condGe s.sf s.of then t else s.pc + 5#32
  | .jg t => if condG s.zf s.sf s.of then t else s.pc + 5#32
  | .call t => t
  | .ret => s.mem.load (popSlot s).toNat .word

namespace Machine

/-- The `n` bytes of memory from address `a` on. -/
def State.bytesAt (s : State) (a n : Nat) : List Byte := (List.range n).map fun k => s.byteAt (a + k)

/-- The bytes at `pc` are in bounds and decode to `i`. -/
def State.holdsAtPc (s : State) (i : Instr) : Prop :=
  s.inBounds s.pc i.length = true ∧ decode (s.bytesAt s.pc.toNat i.length) = .ok (i, [])

/-- The cursor lies within the input (R64): it has moved past no item that does not exist. -/
def State.cursorOk (s : State) : Bool := s.input.endless || decide (s.cursor ≤ s.input.items.length)

/-- The invariant of the block: memory in canonical form, every listed byte inside `[0, MEM_SIZE)` (R40, R47),
the cursor within the input (R64). -/
def State.Inv (s : State) : Prop :=
  s.mem.wf = true ∧ s.mem.within s.memSize.val = true ∧ s.cursorOk = true

/-- Every byte outside the `n` bytes at address word `ea` reads the same in `t` as in `s`. -/
def State.sameOutside (s t : State) (ea : Word) (n : Nat) : Prop :=
  ∀ a, ¬(ea.toNat ≤ a ∧ a < ea.toNat + n) → t.byteAt a = s.byteAt a

/-- The 4 bytes at address `a` as one word, `mem[a+3] ++ mem[a+2] ++ mem[a+1] ++ mem[a]` (R44). -/
def State.wordAt (s : State) (a : Nat) : Word :=
  s.byteAt (a + 3) ++ s.byteAt (a + 2) ++ s.byteAt (a + 1) ++ s.byteAt a

/-- The byte a directive writes at address `a`, if it writes one there (R223). -/
def Directive.pokedByte (d : Directive) (a : Nat) : Option Byte :=
  match d with
  | .size _ => none
  | .text addr bs => if addr.toNat ≤ a then bs[a - addr.toNat]? else none
  | .byte addr b => if a = addr.toNat then some b else none
  | .long addr v => if addr.toNat ≤ a ∧ a < addr.toNat + 4 then some (v.extractLsb' (8 * (a - addr.toNat)) 8) else none

/-- The bytes a directive writes all lie inside a memory of `size` bytes (R223). A `.text` of no bytes writes none (log
entry 14), and a `.size` writes none. -/
def Directive.insideMemory (size : Nat) (d : Directive) : Bool :=
  match d with
  | .size _ => true
  | .text addr bs => bs.isEmpty || decide (0 ≤ addr.toInt ∧ addr.toInt + bs.length ≤ size)
  | .byte addr _ => decide (0 ≤ addr.toInt ∧ addr.toInt + 1 ≤ size)
  | .long addr _ => decide (0 ≤ addr.toInt ∧ addr.toInt + 4 ≤ size)

/-- The address of a `.text` directive (R224). -/
def Directive.textAddr (d : Directive) : Option Word :=
  match d with
  | .text addr _ => some addr
  | .size _ | .byte _ _ | .long _ _ => none

/-- The state after at most `n` steps of a run (R113): it stays where no step is taken. -/
def State.after : Nat → State → State
  | 0, s => s
  | n + 1, s =>
    match step s with
    | .next t => State.after n t
    | .fault _ => s
    | .refused _ => s

end Machine

end Sys2Proof
end

