-- ==== Sys2Proof/Certificates/Slice0/Obligations.lean ====
section
/-! DEFINITION. The statements for the provers. Each docstring names the rules of spec/ a statement formalises;
where a clause rests on a decision the spec marks as its own (D<n> of 92_eei_decisions.md) or on a choice of the
model (a log entry), it says so. `toInt` is `sint`, `BitVec.ofInt 32` is `trunc_32`. -/

open Sys2Proof Sys2Proof.Machine

/-! ## Reset and load -/

/-- The state in which a run begins, for every run parameters (10_state.md section 6). `pc`, `status` and memory are
the source's; the zeros of registers and flags are the spec's decision D9, the I/O streams its D17. A finite input is
listed in full, and the input port stands at the first item of any input. -/
def Obligations.ResetLeavesSpecValues : Prop :=
  ∀ p : RunParams,
    (∀ r, (State.ofRun p).reg r = 0#32) ∧ (State.ofRun p).pc = p.entry ∧
    (State.ofRun p).zf = false ∧ (State.ofRun p).sf = false ∧ (State.ofRun p).of = false ∧
    (State.ofRun p).status = .running ∧ (State.ofRun p).memSize = p.memSize ∧
    (∀ a, (State.ofRun p).byteAt a = Memory.read p.initMem a) ∧
    (∀ items, p.input = .finite items → (State.ofRun p).input = ⟨items, false⟩) ∧
    (State.ofRun p).nextItem = p.input.item 0 ∧ (State.ofRun p).cursor = 0 ∧ (State.ofRun p).output = []

/-- The invariant holds at reset: of the model's own reset state (log entry 1), and of the start of every run whose
initial memory is canonical and lies inside `[0, MEM_SIZE)`. -/
def Obligations.ResetMeetsInvariant : Prop :=
  State.reset.Inv ∧
  ∀ p : RunParams, Memory.wf p.initMem = true → Memory.within p.memSize.val p.initMem = true → (State.ofRun p).Inv

/-- A program that loads gives a run that begins in the invariant (70_reset_and_hazards.md sections 1 and 2). -/
def Obligations.LoadedProgramMeetsInvariant : Prop :=
  ∀ (hostLimit : Nat) (ds : List Directive) (q : Input) (p : RunParams),
    loadProgram hostLimit ds q = .ok p → (State.ofRun p).Inv

/-- What a successful load is (70_reset_and_hazards.md section 2; D8, D19): `.size` first and once, of a non-negative
size the host can allocate; exactly one `.text`, whose address is `ENTRY`; every directive writes inside memory (one
that writes no bytes does, log entry 14); and every byte is that of the last directive that wrote it, or 0. -/
def Obligations.LoadAppliesDirectivesInOrder : Prop :=
  ∀ (hostLimit : Nat) (ds : List Directive) (q : Input) (p : RunParams),
    loadProgram hostLimit ds q = .ok p →
    ∃ n rest, ds = .size n :: rest ∧ 0 ≤ n.toInt ∧ n.toNat ≤ hostLimit ∧ p.memSize.val = n.toNat ∧ p.input = q ∧
      (∀ m, .size m ∉ rest) ∧ rest.filterMap Directive.textAddr = [p.entry] ∧
      (∀ d ∈ rest, d.insideMemory p.memSize.val = true) ∧
      ∀ a, Memory.read p.initMem a = rest.foldl (fun b d => (d.pokedByte a).getD b) 0#8

/-! ## Encoding and decoding -/

/-- The opcode map of 30_encoding.md section 3, one row per instruction, as the bytes the encoder writes: opcode,
register byte `rA:rB`, 4-byte field little-endian. That rA is the high nibble is the spec's decision D1, the `F` of an
unused field its D2. -/
def Obligations.EncoderFollowsOpcodeMap : Prop :=
  ∀ (a b : Reg) (v : Word),
    let rb : Byte := a.code ++ b.code
    let aF : Byte := a.code ++ 0xF#4
    let bF : Byte := 0xF#4 ++ b.code
    let le : List Byte := [v.extractLsb' 0 8, v.extractLsb' 8 8, v.extractLsb' 16 8, v.extractLsb' 24 8]
    encode .nop = [0x00#8] ∧ encode .halt = [0x10#8] ∧ encode (.rrmovl a b) = [0x20#8, rb] ∧
    encode (.irmovl b v) = [0x30#8, bF] ++ le ∧ encode (.rmmovl a b v) = [0x40#8, rb] ++ le ∧
    encode (.mrmovl a b v) = [0x50#8, rb] ++ le ∧ encode (.addl a b) = [0x60#8, rb] ∧
    encode (.subl a b) = [0x61#8, rb] ∧ encode (.andl a b) = [0x62#8, rb] ∧ encode (.xorl a b) = [0x63#8, rb] ∧
    encode (.mull a b) = [0x64#8, rb] ∧ encode (.cmpl a b) = [0x65#8, rb] ∧ encode (.jmp v) = 0x70#8 :: le ∧
    encode (.jle v) = 0x71#8 :: le ∧ encode (.jl v) = 0x72#8 :: le ∧ encode (.je v) = 0x73#8 :: le ∧
    encode (.jne v) = 0x74#8 :: le ∧ encode (.jge v) = 0x75#8 :: le ∧ encode (.jg v) = 0x76#8 :: le ∧
    encode (.call v) = 0x80#8 :: le ∧ encode .ret = [0x90#8] ∧ encode (.pushl a) = [0xA0#8, aF] ∧
    encode (.popl a) = [0xB0#8, aF] ∧ encode (.readb a v) = [0xC0#8, aF] ++ le ∧
    encode (.readl a v) = [0xC1#8, aF] ++ le ∧ encode (.writeb a v) = [0xD0#8, aF] ++ le ∧
    encode (.writel a v) = [0xD1#8, aF] ++ le ∧ encode (.movsbl a b v) = [0xE0#8, rb] ++ le

/-- A few of the spec's own examples, byte by byte, decode to the instruction beside them (42_moves.md, 43_alu.md,
44_jumps.md, 45_call_stack.md, 46_io.md, 47_movsbl.md). -/
def Obligations.ExampleBytesDecode : Prop :=
  decode [0x20#8, 0x10#8] = .ok (.rrmovl .ecx .eax, []) ∧
  decode [0x30#8, 0xF0#8, 0x05#8, 0x00#8, 0x00#8, 0x00#8] = .ok (.irmovl .eax 5#32, []) ∧
  decode [0x61#8, 0x21#8] = .ok (.subl .edx .ecx, []) ∧
  decode [0x74#8, 0x18#8, 0x00#8, 0x00#8, 0x00#8] = .ok (.jne 0x18#32, []) ∧
  decode [0xB0#8, 0x2F#8] = .ok (.popl .edx, []) ∧
  decode [0xC0#8, 0x3F#8, 0x00#8, 0x00#8, 0x00#8, 0x00#8] = .ok (.readb .ebx 0#32, []) ∧
  decode [0xE0#8, 0x03#8, 0x00#8, 0x00#8, 0x00#8, 0x00#8] = .ok (.movsbl .eax .ebx 0#32, [])

/-- The round trip (30_encoding.md R81, which the spec marks as derived), both ways. Encoding then decoding gives
back every instruction with every operand, and the bytes after it. Decoding then encoding gives back the bytes
whose unused register fields hold `F` (D2). -/
def Obligations.DecodeEncodeAgree : Prop :=
  (∀ (i : Instr) (rest : List Byte), decode (encode i ++ rest) = .ok (i, rest)) ∧
  (∀ (bs rest : List Byte) (i : Instr), decode bs = .ok (i, rest) →
    (Raw.hasRegisterByte (bs.getD 0 0) = true →
      Raw.canonical ⟨bs.getD 0 0, highNibble (bs.getD 1 0), lowNibble (bs.getD 1 0), 0⟩ = true) →
    encode i ++ rest = bs)

/-- The decoder accepts what the tables of 30_encoding.md (WellFormed.lean) call legal and refuses the rest, each
for its own reason and in the order of 40_fsm.md section 3: unknown opcode, missing bytes (D4), a used register
field above 7 (D3); it takes as many bytes as the length table says. -/
def Obligations.DecoderAcceptsLegalOnly : Prop :=
  ∀ (op : Byte) (tail : List Byte),
    let bs := op :: tail
    let raw : Raw := ⟨op, highNibble (bs.getD 1 0), lowNibble (bs.getD 1 0), 0⟩
    (Raw.knownOpcode op = false → decode bs = .error .unknownOpcode) ∧
    (Raw.knownOpcode op = true → bs.length < Raw.length op → decode bs = .error .truncated) ∧
    (Raw.knownOpcode op = true → Raw.length op ≤ bs.length → raw.fieldsInRange = false →
      decode bs = .error .badRegister) ∧
    (Raw.knownOpcode op = true → Raw.length op ≤ bs.length → raw.fieldsInRange = true →
      ∃ i, decode bs = .ok (i, bs.drop (Raw.length op)) ∧ i.length = Raw.length op)

/-- An unused register field may hold anything: the decoder ignores it, and the encoder writes `F` (30_encoding.md
section 2, the spec's decision D2). -/
def Obligations.UnusedNibbleIgnored : Prop :=
  (∀ (op rb : Byte) (x : BitVec 4) (tail : List Byte), Raw.hasRegisterByte op = true →
    (Raw.usesA op = false → decode (op :: (x ++ lowNibble rb : Byte) :: tail) = decode (op :: rb :: tail)) ∧
    (Raw.usesB op = false → decode (op :: (highNibble rb ++ x : Byte) :: tail) = decode (op :: rb :: tail))) ∧
  (∀ i : Instr, Raw.hasRegisterByte ((encode i).getD 0 0) = true →
    (Raw.usesA ((encode i).getD 0 0) = false → highNibble ((encode i).getD 1 0) = 0xF#4) ∧
    (Raw.usesB ((encode i).getD 0 0) = false → lowNibble ((encode i).getD 1 0) = 0xF#4))

/-! ## The step -/

/-- A step of a running state whose bytes at `pc` decode to `i` is `exec i` of that state: this block adds nothing
around it (40_fsm.md section 3; `exec` itself moves the `pc`). -/
def Obligations.StepRunsDecodedInstruction : Prop :=
  ∀ (s : State) (i : Instr), s.status = .running → s.holdsAtPc i → step s = exec i s

/-- The whole step, cause by cause in its order (40_fsm.md section 3; the order and the causes D3, D4, D5, D21 are
the spec's own decisions). In a terminal status there is no step. -/
def Obligations.StepFollowsCausePriority : Prop :=
  ∀ s : State,
    let op := s.byteAt s.pc.toNat
    let rb := s.byteAt (s.pc.toNat + 1)
    let raw : Raw := ⟨op, rb.extractLsb' 4 4, rb.extractLsb' 0 4, 0⟩
    (s.status ≠ .running → step s = .fault .runOver) ∧
    (s.status = .running → s.inBounds s.pc 1 = false → step s = .next { s with status := .invalidAddress }) ∧
    (s.status = .running → s.inBounds s.pc 1 = true →
      (Raw.knownOpcode op = false → step s = .next { s with status := .invalidInstruction }) ∧
      (Raw.knownOpcode op = true → s.inBounds s.pc (Raw.length op) = false →
        step s = .next { s with status := .invalidAddress }) ∧
      (Raw.knownOpcode op = true → s.inBounds s.pc (Raw.length op) = true → raw.fieldsInRange = false →
        step s = .next { s with status := .invalidInstruction }) ∧
      (Raw.knownOpcode op = true → s.inBounds s.pc (Raw.length op) = true → raw.fieldsInRange = true →
        ∃ i, s.holdsAtPc i ∧ step s = exec i s))

/-- R102: a run is over exactly when `status` is not RUNNING. A running state always has a next state, no other
state has one, and no number of steps changes a state whose run is over. -/
def Obligations.RunOverExactlyWhenNotRunning : Prop :=
  (∀ s : State, (∃ t, step s = .next t) ↔ s.status = .running) ∧
  (∀ (s : State) (n : Nat), s.status ≠ .running → s.after n = s) ∧
  (∀ p : RunParams, (State.ofRun p).status = .running)

/-- Exceptions are precise (60_exceptions.md section 1; that `pc` keeps its value is the spec's decision D5): a step
that ends in INVALID_ADDRESS or INVALID_INSTRUCTION has changed `status` and nothing else. -/
def Obligations.ExceptionChangesStatusOnly : Prop :=
  ∀ s t : State, step s = .next t → t.status = .invalidAddress ∨ t.status = .invalidInstruction →
    t = { s with status := t.status }

/-- HALTED is set by `halt` alone, and `halt` commits `pc + 1` (60_exceptions.md section 1). The bits 01 of its status
code are the spec's decision D10. -/
def Obligations.HaltedSetByHaltAlone : Prop :=
  Status.halted.code = 0b01#2 ∧
  ∀ s t : State, step s = .next t → (t.status = .halted ↔ s.holdsAtPc .halt) ∧
    (t.status = .halted → t = { s with status := .halted, pc := s.pc + 1#32 })

/-- INVALID_INSTRUCTION has two causes and no other (60_exceptions.md section 1; the second is D3): an opcode byte that
is not one of the 28, and a used register field above 7 in an instruction that is wholly in bounds. That instruction
bytes past the end of memory are an address error (D4), and are one before a register field is looked at, is the
priority of 40_fsm.md section 3, the spec's decision D21 (log entry 8). -/
def Obligations.InvalidInstructionCauses : Prop :=
  ∀ s t : State, step s = .next t →
    let op := s.byteAt s.pc.toNat
    let rb := s.byteAt (s.pc.toNat + 1)
    (t.status = .invalidInstruction ↔ s.inBounds s.pc 1 = true ∧
      (Raw.knownOpcode op = false ∨ (s.inBounds s.pc (Raw.length op) = true ∧
        Raw.fieldsInRange ⟨op, rb.extractLsb' 4 4, rb.extractLsb' 0 4, 0⟩ = false)))

/-! ## All instructions at once -/

/-- Every instruction completes wherever the addresses it checks are in bounds, `pc` going where 10_state.md section 2
says and `status` staying but for `halt`; otherwise it takes INVALID_ADDRESS with nothing else changed (60_exceptions.md
section 1; D5, D15, D16, D20). -/
def Obligations.CompletesOrTakesInvalidAddress : Prop :=
  ∀ (i : Instr) (s : State),
    (i.addressOk s = true → ∃ t, exec i s = .next t ∧ t.pc = i.nextPc s ∧
      t.status = (if i = .halt then .halted else s.status)) ∧
    (i.addressOk s = false → exec i s = .next { s with status := .invalidAddress })

/-- No instruction writes a register outside the "writes" column of 10_state.md R23 (which the spec marks as
derived). -/
def Obligations.RegisterFrame : Prop :=
  ∀ (i : Instr) (s t : State), exec i s = .next t → ∀ r, i.writesReg r = false → t.reg r = s.reg r

/-- Only the ALU six write SF and OF, and only they and the two reads write ZF (10_state.md section 4; that the rest
leave the flags alone is the spec's decision D14). -/
def Obligations.FlagFrame : Prop :=
  ∀ (i : Instr) (s t : State), exec i s = .next t →
    (i.writesSfOf = false → t.sf = s.sf ∧ t.of = s.of) ∧ (i.writesZf = false → t.zf = s.zf)

/-- Every byte of memory but those the instruction stores to reads as before (20_memory.md sections 2 and 3, the
"data writes" column). The address stored to is the one the meaning computes: `effAddr` or `pushSlot` of the state
before the instruction. -/
def Obligations.MemoryFrame : Prop :=
  ∀ (i : Instr) (s t : State), s.mem.wf = true → exec i s = .next t →
    ∀ a, (∀ ea n, i.storeSite s = some (ea, n) → ¬(ea.toNat ≤ a ∧ a < ea.toNat + n)) → t.byteAt a = s.byteAt a

/-- The run parameters never change; the cursor moves only in `readb` and `readl`, by one and only where there is an
item; the output record only grows, by one item and only in `writeb` and `writel` (10_state.md section 5; 20_memory.md
section 7; D17). -/
def Obligations.PortFrame : Prop :=
  ∀ (i : Instr) (s t : State), exec i s = .next t →
    t.memSize = s.memSize ∧ t.input = s.input ∧
    (t.cursor = s.cursor ∨ (t.cursor = s.cursor + 1 ∧ s.nextItem.isSome = true ∧
      ∃ a d, i = .readb a d ∨ i = .readl a d)) ∧
    (t.output = s.output ∨ ∃ x a d, t.output = s.output ++ [x] ∧ (i = .writeb a d ∨ i = .writel a d))

/-- The invariant is kept by every step: memory stays canonical and inside `[0, MEM_SIZE)`, the cursor inside the
input (20_memory.md sections 1, 2 and 7). -/
def Obligations.StepKeepsInvariant : Prop :=
  ∀ s t : State, s.Inv → step s = .next t → t.Inv

/-- A run of `n` steps depends on the `n` next input items only: another input that agrees on those, whatever it holds
before the cursor and after them, gives the same run (40_fsm.md section 3 "for `readb`/`readl`, of the next input
item"; that the input is a sequence with a cursor is D17). -/
def Obligations.RunIgnoresUnreadInput : Prop :=
  ∀ (n : Nat) (s : State) (q : InputSeq),
    (∀ k, s.cursor ≤ k → k < s.cursor + n → inputItem q k = inputItem s.input k) →
    ({ s with input := q } : State).after n = { s.after n with input := q }

/-! ## Memory -/

/-- Memory accesses (20_memory.md section 2). In bounds, reads and writes are little-endian, and a write changes its own
bytes and nothing else. Out of bounds, a write changes nothing (R47), and a read raises INVALID_ADDRESS whatever commit
waits for it; that a raise changes `status` alone is the spec's decision D5 (log entry 8), and the signed bounds check
its D7 (log entry 9). -/
def Obligations.AccessesAreLittleEndianAndBounded : Prop :=
  ∀ (s : State) (a v : Word) (b : Byte), s.mem.wf = true →
    (s.inBounds a 1 = true → memRead8 a s = some (s.byteAt a.toNat)) ∧
    (s.inBounds a 1 = false → memWrite8 a b s = s ∧
      ∀ commit, commitWith (memRead8 a s) commit s = .next { s with status := .invalidAddress }) ∧
    (s.inBounds a 4 = true → memRead32 a s = some (s.wordAt a.toNat)) ∧
    (s.inBounds a 4 = false → memWrite32 a v s = s ∧
      ∀ commit, commitWith (memRead32 a s) commit s = .next { s with status := .invalidAddress }) ∧
    (s.inBounds a 1 = true →
      (memWrite8 a b s).byteAt a.toNat = b ∧ s.sameOutside (memWrite8 a b s) a 1 ∧
      memWrite8 a b s = { s with mem := (memWrite8 a b s).mem }) ∧
    (s.inBounds a 4 = true →
      (memWrite32 a v s).byteAt a.toNat = v.extractLsb' 0 8 ∧
      (memWrite32 a v s).byteAt (a.toNat + 1) = v.extractLsb' 8 8 ∧
      (memWrite32 a v s).byteAt (a.toNat + 2) = v.extractLsb' 16 8 ∧
      (memWrite32 a v s).byteAt (a.toNat + 3) = v.extractLsb' 24 8 ∧
      s.sameOutside (memWrite32 a v s) a 4 ∧
      memWrite32 a v s = { s with mem := (memWrite32 a v s).mem })

/-- The bounds predicate in unsigned terms (20_memory.md section 2; D7): an address word is in bounds exactly when its
bit 31 is 0 and its unsigned value plus the width is at most `MEM_SIZE`, so the sum never wraps. -/
def Obligations.NegativeAddressesNeverInBounds : Prop :=
  ∀ (s : State) (a : Word) (n : Nat),
    s.inBounds a n = true ↔ a.msb = false ∧ a.toNat + n ≤ s.memSize.val

/-- Mixed widths see the little-endian layout (20_memory.md section 4, which the spec marks as derived): after a 4-byte
write, byte `k` reads bits `8k+7 .. 8k`, and the word reads back. -/
def Obligations.MixedWidthReadsAfterWrite : Prop :=
  ∀ (s : State) (a v : Word) (k : Nat), s.mem.wf = true → s.inBounds a 4 = true → k < 4 →
    memRead8 (a + BitVec.ofNat 32 k) (memWrite32 a v s) = some (v.extractLsb' (8 * k) 8) ∧
    memRead32 a (memWrite32 a v s) = some v

/-- A store to the bytes of the next instruction is seen by its fetch (20_memory.md section 6, D26): an instruction of
at most 4 bytes that an `rmmovl` stores right behind itself is the one the next step runs. -/
def Obligations.StoredInstructionRunsNext : Prop :=
  ∀ (a b : Reg) (d : Word) (s t : State) (i : Instr),
    s.mem.wf = true → s.status = .running → s.reg b + d = s.pc + 6#32 → s.inBounds (s.pc + 6#32) 4 = true →
    i.length ≤ 4 → encode i = (bytesOfWord (s.reg a)).take i.length → exec (.rmmovl a b d) s = .next t →
    step t = exec i t

/-- `withFetchWord` puts the machine where the very next step runs the opcode-table word's instruction (log entries 2
and 16); from a running state with room for six bytes at `pc` it changes no field but memory. -/
def Obligations.FetchWordRunsNext : Prop :=
  ∀ (s : State) (nbits w : Nat) (i : Instr), s.mem.wf = true → decodeTableWord nbits w = some i →
    step (s.withFetchWord nbits w) = exec i (s.withFetchWord nbits w) ∧
    (s.status = .running → s.inBounds s.pc 6 = true →
      s.withFetchWord nbits w = { s with mem := (s.withFetchWord nbits w).mem } ∧
      s.sameOutside (s.withFetchWord nbits w) s.pc 6)

/-! ## nop, halt, moves -/

/-- `nop` advances `pc` by 1 and changes nothing else (41_nop_halt.md). That a zero byte in memory executes as one is
an inference the spec marks as derived. -/
def Obligations.NopAdvancesOneByte : Prop :=
  encode .nop = [0x00#8] ∧
  (∀ s : State, exec .nop s = .next { s with pc := s.pc + 1#32 }) ∧
  (∀ s : State, s.status = .running → s.inBounds s.pc 1 = true → s.byteAt s.pc.toNat = 0#8 →
    step s = .next { s with pc := s.pc + 1#32 })

/-- R121: `halt`, the byte 10, sets HALTED and `pc + 1`, changes nothing else, and no step follows. -/
def Obligations.HaltEndsRun : Prop :=
  encode .halt = [0x10#8] ∧
  ∀ s : State, ∃ t, exec .halt s = .next t ∧ t = { s with status := .halted, pc := s.pc + 1#32 } ∧
    step t = .fault .runOver

/-- R125: `rrmovl`, encoded 20 rA:rB, copies x[rA] into x[rB] and changes nothing else but `pc`. -/
def Obligations.RrmovlCopiesRegister : Prop :=
  ∀ (a b : Reg) (s : State),
    encode (.rrmovl a b) = [0x20#8, registerByte a.code b.code] ∧
    ∃ t, exec (.rrmovl a b) s = .next t ∧ (∀ r, t.reg r = if r = b then s.reg a else s.reg r) ∧
      t = { s with regs := t.regs, pc := s.pc + 2#32 }

/-- `irmovl` stores the immediate as it is and changes nothing else but `pc` (42_moves.md; the unused field is D2). -/
def Obligations.IrmovlLoadsImmediate : Prop :=
  ∀ (b : Reg) (v : Word) (s : State),
    ∃ t, exec (.irmovl b v) s = .next t ∧ (∀ r, t.reg r = if r = b then v else s.reg r) ∧
      t = { s with regs := t.regs, pc := s.pc + 6#32 }

/-- `rmmovl` stores the 4 bytes of x[rA] little-endian at x[rB] + D and changes nothing else but `pc`; out of bounds it
takes INVALID_ADDRESS (42_moves.md; D5, D6). -/
def Obligations.RmmovlStoresWord : Prop :=
  ∀ (a b : Reg) (d : Word) (s : State), s.mem.wf = true →
    (s.inBounds (s.reg b + d) 4 = true → ∃ t, exec (.rmmovl a b d) s = .next t ∧
      t.wordAt (s.reg b + d).toNat = s.reg a ∧ s.sameOutside t (s.reg b + d) 4 ∧
      t = { s with mem := t.mem, pc := s.pc + 6#32 }) ∧
    (s.inBounds (s.reg b + d) 4 = false → exec (.rmmovl a b d) s = .next { s with status := .invalidAddress })

/-- `mrmovl` loads the word at x[rB] + D into x[rA], `movsbl` the sign-extended byte there; nothing else changes but
`pc`; out of bounds both take INVALID_ADDRESS (42_moves.md, 47_movsbl.md; D5, D6, D14). -/
def Obligations.LoadsWordOrSignedByte : Prop :=
  ∀ (a b : Reg) (d : Word) (s : State),
    let ea := s.reg b + d
    (s.inBounds ea 4 = true → ∃ t, exec (.mrmovl a b d) s = .next t ∧
      (∀ r, t.reg r = if r = a then s.wordAt ea.toNat else s.reg r) ∧ t = { s with regs := t.regs, pc := s.pc + 6#32 }) ∧
    (s.inBounds ea 1 = true → ∃ t, exec (.movsbl a b d) s = .next t ∧
      (t.reg a).toInt = (s.byteAt ea.toNat).toInt ∧ (∀ r, r ≠ a → t.reg r = s.reg r) ∧
      t = { s with regs := t.regs, pc := s.pc + 6#32 }) ∧
    (s.inBounds ea 4 = false → exec (.mrmovl a b d) s = .next { s with status := .invalidAddress }) ∧
    (s.inBounds ea 1 = false → exec (.movsbl a b d) s = .next { s with status := .invalidAddress })

/-! ## ALU -/

/-- R136: after each of the six operations, ZF is `result = 0` and SF is bit 31 of the result, which is the 32-bit
wrapped result and never the mathematical one. -/
def Obligations.ZeroAndSignFlagsOfWrappedResult : Prop :=
  ∀ (a b : Reg) (s : State) (i : Instr) (r : Word),
    let x := (s.reg b).toInt
    let y := (s.reg a).toInt
    (i, r) ∈ [(Instr.addl a b, BitVec.ofInt 32 (x + y)), (Instr.subl a b, BitVec.ofInt 32 (x - y)),
      (Instr.andl a b, s.reg b &&& s.reg a), (Instr.xorl a b, s.reg b ^^^ s.reg a),
      (Instr.mull a b, BitVec.ofInt 32 (x * y)), (Instr.cmpl a b, BitVec.ofInt 32 (x - y))] →
    ∃ t, exec i s = .next t ∧ t.zf = decide (r = 0#32) ∧ t.sf = r.msb ∧ t.sf = decide (r.toInt < 0) ∧
      (i ≠ .cmpl a b → t.reg b = r)

/-- `addl` (43_alu.md; that 0 counts as non-negative is the spec's decision D25): the wrapped sum, OF by the
equal-signs rule, which is that the exact sum does not fit in 32 bits signed; nothing else changes but `pc`. -/
def Obligations.AddlResultAndOverflow : Prop :=
  ∀ (a b : Reg) (s : State),
    let x := (s.reg b).toInt
    let y := (s.reg a).toInt
    let r := BitVec.ofInt 32 (x + y)
    ∃ t, exec (.addl a b) s = .next t ∧ (∀ q, t.reg q = if q = b then r else s.reg q) ∧
      t.zf = decide (r = 0#32) ∧ t.sf = decide (r.toInt < 0) ∧
      (t.of = true ↔ (y < 0 ∧ x < 0 ∧ 0 ≤ r.toInt) ∨ (0 ≤ y ∧ 0 ≤ x ∧ r.toInt < 0)) ∧
      (t.of = true ↔ x + y < -2 ^ 31 ∨ 2 ^ 31 ≤ x + y) ∧
      t = { s with regs := t.regs, zf := t.zf, sf := t.sf, of := t.of, pc := s.pc + 2#32 }

/-- `subl` computes x[rB] - x[rA] with the source's OF formula, and changes nothing else but ZF, SF and `pc`
(43_alu.md section 2). That the formula is signed overflow for every pair of operands but x[rB] = 0, x[rA] =
0x80000000 is an inference the spec marks as derived. -/
def Obligations.SublResultAndOverflow : Prop :=
  ∀ (a b : Reg) (s : State),
    let x := (s.reg b).toInt
    let y := (s.reg a).toInt
    let r := BitVec.ofInt 32 (x - y)
    encode (.subl a b) = [0x61#8, registerByte a.code b.code] ∧
    ∃ t, exec (.subl a b) s = .next t ∧ (∀ q, t.reg q = if q = b then r else s.reg q) ∧
      t.zf = decide (r = 0#32) ∧ t.sf = decide (r.toInt < 0) ∧
      (t.of = true ↔ (x < 0 ∧ y > 0 ∧ r.toInt > 0) ∨ (x > 0 ∧ y < 0 ∧ r.toInt < 0)) ∧
      ((t.of = true ↔ x - y < -2 ^ 31 ∨ 2 ^ 31 ≤ x - y) ↔ ¬(s.reg b = 0#32 ∧ s.reg a = 0x80000000#32)) ∧
      t = { s with regs := t.regs, zf := t.zf, sf := t.sf, of := t.of, pc := s.pc + 2#32 }

/-- R139 and R140: `andl` and `xorl`, encoded 62 rA:rB and 63 rA:rB, write the bit-wise result, clear OF, set ZF and
SF from the result, and change nothing else but `pc`. -/
def Obligations.AndlXorlResult : Prop :=
  ∀ (a b : Reg) (s : State) (i : Instr) (op : Byte) (r : Word),
    (i, op, r) ∈ [(Instr.andl a b, 0x62#8, s.reg b &&& s.reg a), (Instr.xorl a b, 0x63#8, s.reg b ^^^ s.reg a)] →
    encode i = [op, registerByte a.code b.code] ∧
    ∃ t, exec i s = .next t ∧ (∀ q, t.reg q = if q = b then r else s.reg q) ∧
      t.zf = decide (r = 0#32) ∧ t.sf = decide (r.toInt < 0) ∧ t.of = false ∧
      t = { s with regs := t.regs, zf := t.zf, sf := t.sf, of := t.of, pc := s.pc + 2#32 }

/-- R141: `mull`, encoded 64 rA:rB, writes the low 32 bits of the exact signed product, sets ZF and SF from them, and
sets OF exactly when the product does not fit in 32 bits signed; nothing else changes but `pc`. -/
def Obligations.MullResultAndOverflow : Prop :=
  ∀ (a b : Reg) (s : State),
    let p := (s.reg b).toInt * (s.reg a).toInt
    let r := BitVec.ofInt 32 p
    encode (.mull a b) = [0x64#8, registerByte a.code b.code] ∧
    ∃ t, exec (.mull a b) s = .next t ∧ (∀ q, t.reg q = if q = b then r else s.reg q) ∧
      t.zf = decide (r = 0#32) ∧ t.sf = decide (r.toInt < 0) ∧ (t.of = true ↔ p ≠ r.toInt) ∧
      (t.of = true ↔ p < -2 ^ 31 ∨ 2 ^ 31 ≤ p) ∧
      t = { s with regs := t.regs, zf := t.zf, sf := t.sf, of := t.of, pc := s.pc + 2#32 }

/-- The integer laws of the results (43_alu.md section 1): each is the 32-bit wrap of the exact integer one, the
product's low 32 bits are the unsigned product's, and the two bit-wise operations work bit by bit. -/
def Obligations.AluIntegerLaws : Prop :=
  ∀ x y : Word,
    (alu .add x y).result = BitVec.ofInt 32 (x.toInt + y.toInt) ∧
    (alu .sub x y).result = BitVec.ofInt 32 (x.toInt - y.toInt) ∧
    (alu .mul x y).result = BitVec.ofInt 32 (x.toInt * y.toInt) ∧
    (alu .mul x y).result = BitVec.ofNat 32 (x.toNat * y.toNat) ∧
    (∀ k, (alu .and x y).result.getLsbD k = (x.getLsbD k && y.getLsbD k)) ∧
    (∀ k, (alu .xor x y).result.getLsbD k = (x.getLsbD k ^^ y.getLsbD k))

/-- `cmpl` sets the three flags exactly as `subl` of the same registers would, writes no register, and changes nothing
else but `pc` (43_alu.md R142, without its note on the jumps). -/
def Obligations.CmplSetsFlagsOfSubl : Prop :=
  ∀ (a b : Reg) (s : State),
    ∃ t u, exec (.cmpl a b) s = .next t ∧ exec (.subl a b) s = .next u ∧
      t = { s with zf := u.zf, sf := u.sf, of := u.of, pc := s.pc + 2#32 }

/-- After `cmpl %rA, %rB` the conditional jumps follow the signed order of x[rB] and x[rA], and equality, for every
pair of operands but x[rB] = 0, x[rA] = 0x80000000; there `jl` and `jle` are taken and `jg` and `jge` are not
(43_alu.md R142, which the spec marks as derived). -/
def Obligations.JumpsAfterCmplFollowSignedOrder : Prop :=
  ∀ (a b : Reg) (s t : State) (dest : Word), exec (.cmpl a b) s = .next t → s.inBounds dest 1 = true →
    let x := (s.reg b).toInt
    let y := (s.reg a).toInt
    let goes (i : Instr) (p : Prop) : Prop :=
      (p → exec i t = .next { t with pc := dest }) ∧ (¬p → exec i t = .next { t with pc := t.pc + 5#32 })
    goes (.je dest) (x = y) ∧ goes (.jne dest) (x ≠ y) ∧
    (¬(s.reg b = 0#32 ∧ s.reg a = 0x80000000#32) →
      goes (.jl dest) (x < y) ∧ goes (.jle dest) (x ≤ y) ∧ goes (.jg dest) (x > y) ∧ goes (.jge dest) (x ≥ y)) ∧
    (s.reg b = 0#32 ∧ s.reg a = 0x80000000#32 →
      goes (.jl dest) True ∧ goes (.jle dest) True ∧ goes (.jg dest) False ∧ goes (.jge dest) False)

/-! ## Jumps -/

/-- R157 to R162, and `jmp` beside them: each jump's encoding and condition. With its target in bounds, a jump goes to the target when its
condition holds and to `pc + 5` when it does not, and changes nothing else. -/
def Obligations.JumpsFollowTheirConditions : Prop :=
  ∀ (dest : Word) (s : State) (i : Instr) (op : Byte) (taken : Bool),
    (i, op, taken) ∈ [(Instr.jmp dest, 0x70#8, true), (Instr.jle dest, 0x71#8, (s.sf != s.of) || s.zf),
      (Instr.jl dest, 0x72#8, s.sf != s.of), (Instr.je dest, 0x73#8, s.zf), (Instr.jne dest, 0x74#8, !s.zf),
      (Instr.jge dest, 0x75#8, s.sf == s.of), (Instr.jg dest, 0x76#8, (s.sf == s.of) && !s.zf)] →
    encode i = [op, dest.extractLsb' 0 8, dest.extractLsb' 8 8, dest.extractLsb' 16 8, dest.extractLsb' 24 8] ∧
    (s.inBounds dest 1 = true → exec i s = .next { s with pc := if taken then dest else s.pc + 5#32 })

/-- A jump checks its target exactly when it is taken (44_jumps.md section 1; D5, D20): taken with the target out of
bounds, it takes INVALID_ADDRESS and `pc` keeps its value; not taken, it goes to `pc + 5` whatever the target. -/
def Obligations.JumpTargetCheckedOnlyWhenTaken : Prop :=
  ∀ (dest : Word) (s : State) (i : Instr) (taken : Bool),
    (i, taken) ∈ [(Instr.jmp dest, true), (Instr.jle dest, (s.sf != s.of) || s.zf), (Instr.jl dest, s.sf != s.of),
      (Instr.je dest, s.zf), (Instr.jne dest, !s.zf), (Instr.jge dest, s.sf == s.of),
      (Instr.jg dest, (s.sf == s.of) && !s.zf)] →
    (taken = true → s.inBounds dest 1 = false → exec i s = .next { s with status := .invalidAddress }) ∧
    (taken = false → exec i s = .next { s with pc := s.pc + 5#32 })

/-! ## Call, return, stack -/

/-- `call` stores `pc + 5` at x[4] - 4, leaves that address in x[4] and goes to the target; with the target or the slot
out of bounds it takes INVALID_ADDRESS and writes nothing (45_call_stack.md; D5, D14, D16, D20). -/
def Obligations.CallPushesReturnAddress : Prop :=
  ∀ (dest : Word) (s : State), s.mem.wf = true →
    let sp := s.reg .esp - 4#32
    (s.inBounds dest 1 = true → s.inBounds sp 4 = true → ∃ t, exec (.call dest) s = .next t ∧
      (∀ r, t.reg r = if r = .esp then sp else s.reg r) ∧ t.wordAt sp.toNat = s.pc + 5#32 ∧ s.sameOutside t sp 4 ∧
      t = { s with regs := t.regs, mem := t.mem, pc := dest }) ∧
    (s.inBounds dest 1 = false ∨ s.inBounds sp 4 = false →
      exec (.call dest) s = .next { s with status := .invalidAddress })

/-- `ret` goes to the word at x[4], unchecked (D15), and adds 4 to x[4]; out of bounds it takes INVALID_ADDRESS
(45_call_stack.md; D5, D14). -/
def Obligations.RetPopsReturnAddress : Prop :=
  ∀ s : State,
    (s.inBounds (s.reg .esp) 4 = true → ∃ t, exec .ret s = .next t ∧
      (∀ r, t.reg r = if r = .esp then s.reg .esp + 4#32 else s.reg r) ∧
      t = { s with regs := t.regs, pc := s.wordAt (s.reg .esp).toNat }) ∧
    (s.inBounds (s.reg .esp) 4 = false → exec .ret s = .next { s with status := .invalidAddress })

/-- `pushl %rA` stores at x[4] - 4 and leaves that address in x[4]; `pushl %esp` stores the decremented value (D12); out
of bounds it takes INVALID_ADDRESS (45_call_stack.md; D5, D14). -/
def Obligations.PushlStoresRegister : Prop :=
  ∀ (a : Reg) (s : State), s.mem.wf = true →
    let sp := s.reg .esp - 4#32
    (s.inBounds sp 4 = true → ∃ t, exec (.pushl a) s = .next t ∧
      (∀ r, t.reg r = if r = .esp then sp else s.reg r) ∧
      t.wordAt sp.toNat = (if a = .esp then sp else s.reg a) ∧ s.sameOutside t sp 4 ∧
      t = { s with regs := t.regs, mem := t.mem, pc := s.pc + 2#32 }) ∧
    (s.inBounds sp 4 = false → exec (.pushl a) s = .next { s with status := .invalidAddress })

/-- `popl %rA` loads the word at x[4] into x[rA] and adds 4 to x[4]; `popl %esp` leaves the popped word plus 4 (D12); out
of bounds it takes INVALID_ADDRESS (45_call_stack.md; D5, D14). -/
def Obligations.PoplLoadsRegister : Prop :=
  ∀ (a : Reg) (s : State),
    let v := s.wordAt (s.reg .esp).toNat
    (s.inBounds (s.reg .esp) 4 = true → ∃ t, exec (.popl a) s = .next t ∧
      (a ≠ .esp → t.reg a = v ∧ t.reg .esp = s.reg .esp + 4#32) ∧ (a = .esp → t.reg .esp = v + 4#32) ∧
      (∀ r, r ≠ a → r ≠ .esp → t.reg r = s.reg r) ∧ t = { s with regs := t.regs, pc := s.pc + 2#32 }) ∧
    (s.inBounds (s.reg .esp) 4 = false → exec (.popl a) s = .next { s with status := .invalidAddress })

/-- A push followed by a pop moves the pushed register into the popped one and restores x[4] (45_call_stack.md R173,
"Scenario 4"), for any two registers that are not x[4] itself. -/
def Obligations.PushThenPopRestores : Prop :=
  ∀ (a c : Reg) (s t : State), s.mem.wf = true → a ≠ .esp → c ≠ .esp →
    s.inBounds (s.reg .esp - 4#32) 4 = true → exec (.pushl a) s = .next t →
    ∃ u, exec (.popl c) t = .next u ∧ u.reg c = s.reg a ∧ u.reg .esp = s.reg .esp ∧
      ∀ r, r ≠ c → u.reg r = s.reg r

/-- A call followed by a return, with the stack as the call left it, comes back to the byte after the call with every
register as before (45_call_stack.md). -/
def Obligations.CallThenRetReturns : Prop :=
  ∀ (dest : Word) (s t u : State), s.mem.wf = true → s.inBounds dest 1 = true →
    s.inBounds (s.reg .esp - 4#32) 4 = true → exec (.call dest) s = .next t →
    u.regs = t.regs → u.mem = t.mem → u.memSize = t.memSize →
    ∃ w, exec .ret u = .next w ∧ w.pc = s.pc + 5#32 ∧ w.regs = s.regs

/-! ## Input and output -/

/-- `readb` and `readl` at end-of-input set ZF, and change nothing else but `pc`: no memory, no cursor, not SF or OF
(46_io.md; D13). Out of bounds they take INVALID_ADDRESS and consume nothing. -/
def Obligations.ReadsAtEndOfInputSetZf : Prop :=
  ∀ (a : Reg) (d : Word) (s : State),
    let ea := s.reg a + d
    (s.inBounds ea 1 = true → s.nextItem = none →
      exec (.readb a d) s = .next { s with zf := true, pc := s.pc + 6#32 }) ∧
    (s.inBounds ea 4 = true → s.nextItem = none →
      exec (.readl a d) s = .next { s with zf := true, pc := s.pc + 6#32 }) ∧
    (s.inBounds ea 1 = false → exec (.readb a d) s = .next { s with status := .invalidAddress }) ∧
    (s.inBounds ea 4 = false → exec (.readl a d) s = .next { s with status := .invalidAddress })

/-- `readb` stores the next item's byte at x[rA] + D, clears ZF and moves the cursor by one (46_io.md; D13, D17). Where
the next item is a word the byte is a free value, of which nothing is said (log entry 5). -/
def Obligations.ReadbStoresNextByte : Prop :=
  ∀ (a : Reg) (d : Word) (s : State) (item : IoItem),
    let ea := s.reg a + d
    s.mem.wf = true → s.inBounds ea 1 = true → s.nextItem = some item →
    ∃ t b, exec (.readb a d) s = .next t ∧ (∀ b', item = .byte b' → b = b') ∧ t.byteAt ea.toNat = b ∧
      s.sameOutside t ea 1 ∧
      t = { s with zf := false, mem := t.mem, cursor := s.cursor + 1, pc := s.pc + 6#32 }

/-- `readl` stores the next item's word little-endian at x[rA] + D, clears ZF and moves the cursor by one (46_io.md; D13,
D17). Where the next item is a byte the word is a free value, of which nothing is said (log entry 5). -/
def Obligations.ReadlStoresNextWord : Prop :=
  ∀ (a : Reg) (d : Word) (s : State) (item : IoItem),
    let ea := s.reg a + d
    s.mem.wf = true → s.inBounds ea 4 = true → s.nextItem = some item →
    ∃ t v, exec (.readl a d) s = .next t ∧ (∀ v', item = .word v' → v = v') ∧ t.wordAt ea.toNat = v ∧
      s.sameOutside t ea 4 ∧
      t = { s with zf := false, mem := t.mem, cursor := s.cursor + 1, pc := s.pc + 6#32 }

/-- `writeb` and `writel` append the byte or the word at x[rA] + D to the output record and change nothing else but
`pc`; out of bounds they take INVALID_ADDRESS and output nothing (46_io.md; D5, D14). -/
def Obligations.WritesAppendItem : Prop :=
  ∀ (a : Reg) (d : Word) (s : State),
    let ea := s.reg a + d
    (s.inBounds ea 1 = true → exec (.writeb a d) s =
      .next { s with output := s.output ++ [.byte (s.byteAt ea.toNat)], pc := s.pc + 6#32 }) ∧
    (s.inBounds ea 4 = true → exec (.writel a d) s =
      .next { s with output := s.output ++ [.word (s.wordAt ea.toNat)], pc := s.pc + 6#32 }) ∧
    (s.inBounds ea 1 = false → exec (.writeb a d) s = .next { s with status := .invalidAddress }) ∧
    (s.inBounds ea 4 = false → exec (.writel a d) s = .next { s with status := .invalidAddress })

/-- End-of-input is final (20_memory.md section 7; D17): once the input has no next item, no number of steps delivers
one. -/
def Obligations.EndOfInputIsFinal : Prop :=
  ∀ (n : Nat) (s : State), s.nextItem = none → (s.after n).nextItem = none ∧ (s.after n).cursor = s.cursor

/-! ## When a load succeeds -/

/-- A load succeeds exactly when its directives obey the rules of 70_reset_and_hazards.md section 2 (D8, D19): `.size`
first and once, of a non-negative size the host can allocate; exactly one `.text`; every directive writes inside
memory. That a `.text` of no bytes lies inside wherever its address is, is the model's choice (log entry 14). -/
def Obligations.LoadSucceedsExactlyWhenRulesHold : Prop :=
  ∀ (hostLimit : Nat) (ds : List Directive) (q : Input),
    (∃ p, loadProgram hostLimit ds q = .ok p) ↔
      ∃ n rest entry, ds = .size n :: rest ∧ 0 ≤ n.toInt ∧ n.toNat ≤ hostLimit ∧ (∀ m, .size m ∉ rest) ∧
        rest.filterMap Directive.textAddr = [entry] ∧ ∀ d ∈ rest, d.insideMemory n.toNat = true

/-! ## Runs on any input -/

/-- The input port of a run delivers the sequence `INPUT` (00_scope.md section 3, 20_memory.md section 7; D17), for every
finite or infinite sequence and every cursor: the item at the cursor, and end-of-input exactly where a finite sequence
has no more. Offering it changes no other field. -/
def Obligations.InputPortDeliversInput : Prop :=
  ∀ (q : Input) (s : State),
    s.offer q = { s with input := (s.offer q).input } ∧ (s.offer q).nextItem = q.item s.cursor ∧
    (∀ items, q = .finite items →
      q.item s.cursor = items[s.cursor]? ∧ ((s.offer q).nextItem = none ↔ items.length ≤ s.cursor)) ∧
    (∀ item, q = .infinite item → (s.offer q).nextItem = some (item s.cursor))

/-- A run on any finite or infinite input is the run on any listing of its next items: `n` steps on `q` give the state
that `n` steps give where the state lists the `n` items of `q` from the cursor on (40_fsm.md section 3, 00_scope.md
section 3; D17). On a finite input that the state lists already, the two runs are the same. -/
def Obligations.RunOnInputIsRunOnListing : Prop :=
  ∀ (q : Input) (n : Nat) (s : State),
    (∀ l : InputSeq, (∀ k, s.cursor ≤ k → k < s.cursor + n → inputItem l k = q.item k) →
      { s.runOn q n with input := l } = ({ s with input := l } : State).after n) ∧
    (∀ items, q = .finite items → s.input = ⟨items, false⟩ → s.runOn q n = s.after n)

/-- Every run keeps the invariant, for every run parameters (00_scope.md section 3, 40_fsm.md section 3), infinite inputs
included: wherever the initial memory is canonical and inside `[0, MEM_SIZE)`, so is memory after any number of steps. -/
def Obligations.EveryRunMeetsInvariant : Prop :=
  ∀ (p : RunParams) (n : Nat), Memory.wf p.initMem = true → Memory.within p.memSize.val p.initMem = true →
    (runState p n).Inv
end

