-- ==== Sys2Proof/Laws/Decode.lean ====
section
/-! SUPPORT. The laws of the decoder's pieces: byte order, the register byte, register fields, and the bytes of
each format cut back into the fields they were made from. -/

namespace Sys2Proof

/-! ## Byte order -/

/-- Joining the four bytes of a word gives the word back (R44, R46). -/
@[simp] theorem wordOfBytes_byteOfWord (v : Word) :
    wordOfBytes (byteOfWord v 0) (byteOfWord v 1) (byteOfWord v 2) (byteOfWord v 3) = v := by
  apply BitVec.eq_of_getLsbD_eq
  intro i hi
  simp only [wordOfBytes, byteOfWord, BitVec.getLsbD_append, BitVec.getLsbD_extractLsb']
  by_cases h0 : i < 8
  · simp [h0]
  · by_cases h1 : i < 16
    · simp [h0, show i - 8 < 8 by omega, show 8 + (i - 8) = i by omega]
    · by_cases h2 : i < 24
      · simp [h0, show ¬ i - 8 < 8 by omega, show i - 8 - 8 < 8 by omega, show 16 + (i - 8 - 8) = i by omega]
      · simp [h0, show ¬ i - 8 < 8 by omega, show ¬ i - 8 - 8 < 8 by omega, show i - 8 - 8 - 8 < 8 by omega,
          show 24 + (i - 8 - 8 - 8) = i by omega]

/-- The bytes of a joined word are the bytes it was joined from (R44, R54). -/
@[simp] theorem byteOfWord_wordOfBytes (b0 b1 b2 b3 : Byte) :
    byteOfWord (wordOfBytes b0 b1 b2 b3) 0 = b0 ∧ byteOfWord (wordOfBytes b0 b1 b2 b3) 1 = b1 ∧
    byteOfWord (wordOfBytes b0 b1 b2 b3) 2 = b2 ∧ byteOfWord (wordOfBytes b0 b1 b2 b3) 3 = b3 := by
  refine ⟨?_, ?_, ?_, ?_⟩ <;>
  · apply BitVec.eq_of_getLsbD_eq
    intro i hi
    simp only [wordOfBytes, byteOfWord, BitVec.getLsbD_append, BitVec.getLsbD_extractLsb', hi, decide_true,
      Bool.true_and]
    split_ifs <;> first | omega | (congr 1; omega)

@[simp] theorem bytesOfWord_wordOfBytes (b0 b1 b2 b3 : Byte) :
    bytesOfWord (wordOfBytes b0 b1 b2 b3) = [b0, b1, b2, b3] := by
  obtain ⟨h0, h1, h2, h3⟩ := byteOfWord_wordOfBytes b0 b1 b2 b3
  simp only [bytesOfWord, h0, h1, h2, h3]

/-! ## The register byte and register fields -/

@[simp] theorem highNibble_registerByte (a b : BitVec 4) : highNibble (registerByte a b) = a := by
  revert a b; decide

@[simp] theorem lowNibble_registerByte (a b : BitVec 4) : lowNibble (registerByte a b) = b := by
  revert a b; decide

@[simp] theorem registerByte_nibbles (b : Byte) : registerByte (highNibble b) (lowNibble b) = b := by
  revert b; decide

@[simp] theorem Reg.ofField_code (r : Reg) : Reg.ofField r.code = some r := by
  cases r <;> rfl

/-- A field names a register exactly when it is that register's index (R21, R75). -/
theorem Reg.ofField_eq_some {f : BitVec 4} {r : Reg} : Reg.ofField f = some r ↔ f = r.code := by
  revert f r
  intro f r
  cases r <;> revert f <;> decide

/-- The fields 8 to 15 name no register (R75). -/
theorem Reg.ofField_eq_none {f : BitVec 4} : Reg.ofField f = none ↔ 7 < f.toNat := by
  revert f; decide

theorem Reg.code_le (r : Reg) : r.code.toNat ≤ 7 := by cases r <;> decide

/-! ## Lengths and formats -/

/-- The format of an instruction is the format of its opcode byte (R71, R77). -/
@[simp] theorem opcodeFormat_toRaw (i : Instr) : opcodeFormat i.toRaw.opcode = some i.format := by
  cases i <;> rfl

/-- The instruction of an instruction's own fields is itself (R77, R81). -/
@[simp] theorem toInstr_toRaw (i : Instr) : i.toRaw.toInstr = .ok i := by
  cases i <;> simp [Instr.toRaw, Raw.toInstr, Raw.withA, Raw.withB, Raw.withAB]

/-- The decoder knows the opcodes of R77 and no other. -/
theorem opcodeFormat_isSome (op : Byte) : (opcodeFormat op).isSome = Raw.knownOpcode op := by
  revert op; decide

/-- The decoder's formats agree with the length table of R78, and the formats with a register byte are R and M. -/
theorem opcodeFormat_length {op : Byte} {f : Format} (h : opcodeFormat op = some f) :
    Raw.length op = f.length ∧ (Raw.hasRegisterByte op = true ↔ f = .r ∨ f = .m) := by
  revert op f
  decide

theorem length_rawBytes (r : Raw) (f : Format) : (r.bytes f).length = f.length := by
  cases f <;> rfl

/-- The encoder writes `L` bytes (R70, R78). -/
@[simp] theorem length_encode (i : Instr) : (encode i).length = i.length := length_rawBytes _ _

theorem Instr.length_pos (i : Instr) : 1 ≤ i.length := by
  unfold Instr.length; cases i.format <;> decide

theorem Instr.length_le (i : Instr) : i.length ≤ 6 := by
  unfold Instr.length; cases i.format <;> decide

/-- The encoder's first byte is the opcode byte. -/
theorem encode_eq_cons (i : Instr) : ∃ bs, encode i = i.toRaw.opcode :: bs := by
  unfold encode
  cases i.format <;> exact ⟨_, rfl⟩

/-- Cutting the bytes of an instruction gives its fields back (R71, R73, R76). -/
theorem splitFields_encode (i : Instr) (rest : List Byte) :
    ∃ bs, encode i ++ rest = i.toRaw.opcode :: bs ∧ splitFields i.toRaw.opcode i.format bs = some (i.toRaw, rest) := by
  refine ⟨(encode i).tail ++ rest, ?_, ?_⟩
  · obtain ⟨bs, h⟩ := encode_eq_cons i
    simp [h]
  · cases i <;> simp [encode, Instr.format, Instr.toRaw, Raw.bytes, splitFields, bytesOfWord]

/-- What a cut into fields is: the bytes are those of the fields, and the register fields are the nibbles of the
register byte (R71, R73, R106). -/
theorem splitFields_eq_some {op : Byte} {f : Format} {tail rest : List Byte} {raw : Raw}
    (h : splitFields op f tail = some (raw, rest)) :
    raw.opcode = op ∧ raw.bytes f ++ rest = op :: tail ∧
      (f = .r ∨ f = .m → raw.rA = highNibble (tail.getD 0 0) ∧ raw.rB = lowNibble (tail.getD 0 0)) := by
  unfold splitFields at h
  split at h
  case h_5 => cases h
  all_goals
    simp only [Option.some.injEq, Prod.mk.injEq] at h
    obtain ⟨rfl, rfl⟩ := h
    simp [Raw.bytes]

/-- A cut succeeds when the bytes of the format are there (R105). -/
theorem splitFields_isSome {op : Byte} {f : Format} {tail : List Byte} :
    (splitFields op f tail).isSome = true ↔ f.length ≤ tail.length + 1 := by
  cases f
  · simp [splitFields, Format.length]
  · rcases tail with _ | ⟨a, t⟩ <;> simp [splitFields, Format.length]
  · rcases tail with _ | ⟨a, _ | ⟨b, _ | ⟨c, _ | ⟨d, t⟩⟩⟩⟩ <;> simp [splitFields, Format.length]
  · rcases tail with _ | ⟨a, _ | ⟨b, _ | ⟨c, _ | ⟨d, _ | ⟨e, t⟩⟩⟩⟩⟩ <;> simp [splitFields, Format.length]

/-- The opcode map is the only source of an instruction: a decode that answers came through it. -/
theorem decode_eq_ok {bs rest : List Byte} {i : Instr} (h : decode bs = .ok (i, rest)) :
    ∃ op tail f raw, bs = op :: tail ∧ opcodeFormat op = some f ∧ splitFields op f tail = some (raw, rest) ∧
      raw.toInstr = .ok i := by
  cases bs with
  | nil => simp [decode] at h
  | cons op tail =>
    simp only [decode] at h
    split at h
    · simp at h
    · rename_i f hf
      split at h
      · simp at h
      · rename_i raw rest' hs
        split at h
        · rename_i j hj
          simp only [Except.ok.injEq, Prod.mk.injEq] at h
          exact ⟨op, tail, f, raw, rfl, hf, by rw [hs, h.2], by rw [hj, h.1]⟩
        · simp at h

/-! ## What an instruction of the opcode map came from -/

theorem Raw.withA_eq_ok {r : Raw} {mk : Reg → Instr} {i : Instr} :
    r.withA mk = .ok i ↔ ∃ a, r.rA = a.code ∧ i = mk a := by
  unfold Raw.withA
  constructor
  · intro h
    split at h
    · rename_i a ha
      exact ⟨a, Reg.ofField_eq_some.1 ha, by simpa using h.symm⟩
    · cases h
  · rintro ⟨a, ha, rfl⟩
    simp [ha]

theorem Raw.withB_eq_ok {r : Raw} {mk : Reg → Instr} {i : Instr} :
    r.withB mk = .ok i ↔ ∃ b, r.rB = b.code ∧ i = mk b := by
  unfold Raw.withB
  constructor
  · intro h
    split at h
    · rename_i b hb
      exact ⟨b, Reg.ofField_eq_some.1 hb, by simpa using h.symm⟩
    · cases h
  · rintro ⟨b, hb, rfl⟩
    simp [hb]

theorem Raw.withAB_eq_ok {r : Raw} {mk : Reg → Reg → Instr} {i : Instr} :
    r.withAB mk = .ok i ↔ ∃ a b, r.rA = a.code ∧ r.rB = b.code ∧ i = mk a b := by
  unfold Raw.withAB
  constructor
  · intro h
    split at h
    · rename_i a b ha hb
      exact ⟨a, b, Reg.ofField_eq_some.1 ha, Reg.ofField_eq_some.1 hb, by simpa using h.symm⟩
    · cases h
  · rintro ⟨a, b, ha, hb, rfl⟩
    simp [ha, hb]

/-- The fields `r` agree with the fields of `i` where the instruction uses them (R74). -/
def Raw.agreesWith (r : Raw) (i : Instr) : Prop :=
  r.opcode = i.toRaw.opcode ∧ (Raw.usesA r.opcode = true → r.rA = i.toRaw.rA) ∧
  (Raw.usesB r.opcode = true → r.rB = i.toRaw.rB) ∧ (i.format = .j ∨ i.format = .m → r.imm = i.toRaw.imm)

/-- Fields that are an instruction are its own fields, but for the fields it does not use (R74, R77, R107). -/
theorem Raw.agreesWith_of_toInstr {r : Raw} {i : Instr} (h : r.toInstr = .ok i) : r.agreesWith i := by
  obtain ⟨op, rA, rB, imm⟩ := r
  have hop' : op = BitVec.ofNat 8 op.toNat := by simp
  unfold Raw.toInstr at h
  dsimp only at h
  split at h <;> rename_i hop
  all_goals first | (rw [hop] at hop'; subst hop') | skip
  all_goals
    first
    | (obtain ⟨a, b, ha, hb, rfl⟩ := Raw.withAB_eq_ok.1 h
       exact ⟨rfl, fun _ => ha, fun _ => hb, by simp [Instr.format, Instr.toRaw]⟩)
    | (obtain ⟨a, ha, rfl⟩ := Raw.withA_eq_ok.1 h
       exact ⟨rfl, fun _ => ha, fun hu => Bool.noConfusion (show false = true from hu), by simp [Instr.format, Instr.toRaw]⟩)
    | (obtain ⟨b, hb, rfl⟩ := Raw.withB_eq_ok.1 h
       exact ⟨rfl, fun hu => Bool.noConfusion (show false = true from hu), fun _ => hb, by simp [Instr.format, Instr.toRaw]⟩)
    | (cases h
       exact ⟨rfl, fun hu => Bool.noConfusion (show false = true from hu), fun hu => Bool.noConfusion (show false = true from hu), by simp [Instr.format, Instr.toRaw]⟩)
    | cases h

/-! ## Decoding reads the instruction's own bytes -/

/-- The bytes of the instruction alone decode to it (R70, R105). -/
theorem decode_take {bs rest : List Byte} {i : Instr} (h : decode bs = .ok (i, rest)) :
    decode (bs.take i.length) = .ok (i, []) := by
  obtain ⟨op, tail, f, raw, rfl, hf, hs, hi⟩ := decode_eq_ok h
  obtain ⟨hop, hb, -⟩ := splitFields_eq_some hs
  have hl : i.length = f.length := by
    have := opcodeFormat_toRaw i
    rw [← (Raw.agreesWith_of_toInstr hi).1, hop, hf] at this
    rw [Instr.length, ← Option.some.inj this]
  have hs' : splitFields op f (raw.bytes f).tail = some (raw, []) := by
    cases f
    · simp [splitFields] at hs
      obtain ⟨rfl, -⟩ := hs
      simp [splitFields, Raw.bytes]
    · rcases tail with _ | ⟨a, t⟩ <;> simp [splitFields] at hs
      obtain ⟨rfl, -⟩ := hs
      simp [splitFields, Raw.bytes]
    · rcases tail with _ | ⟨a, _ | ⟨b, _ | ⟨c, _ | ⟨d, t⟩⟩⟩⟩ <;> simp [splitFields] at hs
      obtain ⟨rfl, -⟩ := hs
      simp [splitFields, Raw.bytes]
    · rcases tail with _ | ⟨a, _ | ⟨b, _ | ⟨c, _ | ⟨d, _ | ⟨e, t⟩⟩⟩⟩⟩ <;> simp [splitFields] at hs
      obtain ⟨rfl, -⟩ := hs
      simp [splitFields, Raw.bytes]
  have hcons : raw.bytes f = op :: (raw.bytes f).tail := by subst hop; cases f <;> rfl
  rw [← hb, hl, ← length_rawBytes raw f, List.take_left, hcons]
  simp only [decode, hf, hs', hi]

end Sys2Proof
end

