-- ==== Sys2Proof/Laws/Memory.lean ====
section
/-! SUPPORT. The laws of the memory list: a read after a write, the canonical form and the bound on listed
addresses kept by every operation, and that canonical memories which read alike are equal. -/

namespace Sys2Proof.Machine.Memory

/-! ## Reading and writing one byte -/

@[simp] theorem read_nil (a : Nat) : Memory.read [] a = 0#8 := rfl

theorem read_cons (c : Host.Cell) (m : Memory) (a : Nat) :
    Memory.read (c :: m) a = if c.1 = a then c.2 else m.read a := rfl

/-- Below the first address a canonical memory may list, every byte is 0. -/
theorem read_of_lt_wfFrom {m : Memory} {lo a : Nat} (h : wfFrom lo m = true) (ha : a < lo) : m.read a = 0#8 := by
  induction m generalizing lo with
  | nil => rfl
  | cons c m ih =>
    simp only [wfFrom, Bool.and_eq_true, decide_eq_true_eq] at h
    rw [read_cons, if_neg (by omega)]
    exact ih h.2 (by omega)

/-- A read just after prefixing the entry of `v` at `a` to a memory that is 0 there. -/
theorem read_entry_append {m : Memory} {a b : Nat} {v : Byte} (hm : m.read a = 0#8) :
    Memory.read (entry a v ++ m) b = if b = a then v else m.read b := by
  unfold entry unlisted
  split
  · rename_i h; subst h
    by_cases hb : b = a <;> simp [hb, hm]
  · by_cases hb : b = a
    · simp [read_cons, hb]
    · simp [read_cons, hb, Ne.symm hb]

theorem read_writeFrom {m : Memory} {lo : Nat} (h : wfFrom lo m = true) (a b : Nat) (v : Byte) :
    (m.write a v).read b = if b = a then v else m.read b := by
  induction m generalizing lo with
  | nil => simpa [Memory.write] using read_entry_append (m := []) (a := a) (b := b) (v := v) rfl
  | cons c m ih =>
    simp only [wfFrom, Bool.and_eq_true, decide_eq_true_eq] at h
    unfold Memory.write
    split
    · rename_i hlt
      refine read_entry_append ?_
      rw [read_cons, if_neg (by omega)]
      exact read_of_lt_wfFrom h.2 (by omega)
    · split
      · rename_i hlt heq
        rw [read_entry_append (read_of_lt_wfFrom h.2 (by omega)), read_cons]
        by_cases hb : b = a
        · simp [hb]
        · simp [hb, show ¬ c.1 = b by omega]
      · rename_i hlt hne
        rw [read_cons, ih h.2, read_cons]
        by_cases hb : c.1 = b
        · simp [hb, show ¬ b = a by omega]
        · simp [hb]

/-- A byte read after a byte write: the written byte at its address, the old byte elsewhere (R58). -/
theorem read_write {m : Memory} (h : m.wf = true) (a b : Nat) (v : Byte) :
    (m.write a v).read b = if b = a then v else m.read b := read_writeFrom h a b v

/-! ## The canonical form is kept -/

theorem wfFrom_mono {m : Memory} {lo lo' : Nat} (h : wfFrom lo m = true) (hl : lo' ≤ lo) : wfFrom lo' m = true := by
  cases m with
  | nil => rfl
  | cons c m =>
    simp only [wfFrom, Bool.and_eq_true, decide_eq_true_eq] at h ⊢
    exact ⟨⟨by omega, h.1.2⟩, h.2⟩

theorem wfFrom_entry_append {m : Memory} {lo a : Nat} {v : Byte} (hlo : lo ≤ a) (h : wfFrom (a + 1) m = true) :
    wfFrom lo (entry a v ++ m) = true := by
  unfold entry unlisted
  split
  · exact wfFrom_mono h (by omega)
  · simp_all [wfFrom]

theorem wfFrom_write {m : Memory} {lo a : Nat} (v : Byte) (hlo : lo ≤ a) (h : wfFrom lo m = true) :
    wfFrom lo (m.write a v) = true := by
  induction m generalizing lo with
  | nil => simpa [Memory.write] using wfFrom_entry_append (m := []) (v := v) hlo rfl
  | cons c m ih =>
    simp only [wfFrom, Bool.and_eq_true, decide_eq_true_eq] at h
    unfold Memory.write
    split
    · refine wfFrom_entry_append hlo ?_
      simp only [wfFrom, Bool.and_eq_true, decide_eq_true_eq]
      exact ⟨⟨by omega, h.1.2⟩, h.2⟩
    · split
      · rename_i hlt heq
        exact wfFrom_entry_append hlo (heq ▸ h.2)
      · simp only [wfFrom, Bool.and_eq_true, decide_eq_true_eq]
        exact ⟨h.1, ih (by omega) h.2⟩

theorem wf_write {m : Memory} (h : m.wf = true) (a : Nat) (v : Byte) : (m.write a v).wf = true :=
  wfFrom_write v (Nat.zero_le a) h

theorem wf_writeBytes {m : Memory} (h : m.wf = true) (a : Nat) (bs : List Byte) : (m.writeBytes a bs).wf = true := by
  induction bs generalizing m a with
  | nil => exact h
  | cons v vs ih => exact ih (wf_write h a v) (a + 1)

theorem wf_store {m : Memory} (h : m.wf = true) (b : Nat) (v : Word) (w : Width) : (m.store b v w).wf = true := by
  cases w
  · exact wf_write h b _
  · exact wf_writeBytes h b _

/-! ## Listed addresses stay below the memory size -/

theorem within_cons {n : Nat} {c : Host.Cell} {m : Memory} :
    Memory.within n (c :: m) = true ↔ c.1 < n ∧ Memory.within n m = true := by
  simp [Memory.within]

theorem within_entry_append {m : Memory} {n a : Nat} {v : Byte} (ha : a < n) (h : m.within n = true) :
    Memory.within n (entry a v ++ m) = true := by
  unfold entry
  split
  · exact h
  · exact within_cons.2 ⟨ha, h⟩

theorem within_write {m : Memory} {n a : Nat} (v : Byte) (ha : a < n) (h : m.within n = true) :
    (m.write a v).within n = true := by
  induction m with
  | nil => simpa [Memory.write] using within_entry_append (m := []) (v := v) ha rfl
  | cons c m ih =>
    have hc := within_cons.1 h
    unfold Memory.write
    split
    · exact within_entry_append ha h
    · split
      · exact within_entry_append ha hc.2
      · exact within_cons.2 ⟨hc.1, ih hc.2⟩

theorem within_writeBytes {m : Memory} {n a : Nat} (bs : List Byte) (ha : a + bs.length ≤ n) (h : m.within n = true) :
    (m.writeBytes a bs).within n = true := by
  induction bs generalizing m a with
  | nil => exact h
  | cons v vs ih =>
    simp only [List.length_cons] at ha
    exact ih (by omega) (within_write v (by omega) h)

theorem within_store {m : Memory} {n b : Nat} (v : Word) (w : Width) (hb : b + w.bytes ≤ n) (h : m.within n = true) :
    (m.store b v w).within n = true := by
  cases w
  · exact within_write _ (by simp [Width.bytes] at hb; omega) h
  · exact within_writeBytes _ (by simpa [bytesOfWord, Width.bytes] using hb) h

/-! ## Reading after a run of bytes -/

theorem read_writeBytes {m : Memory} (h : m.wf = true) (a : Nat) (bs : List Byte) (b : Nat) :
    (m.writeBytes a bs).read b = if a ≤ b then (bs[b - a]?).getD (m.read b) else m.read b := by
  induction bs generalizing m a with
  | nil => simp [Memory.writeBytes]
  | cons v vs ih =>
    rw [Memory.writeBytes, ih (wf_write h a v), read_write h]
    by_cases hab : a ≤ b
    · by_cases hEq : b = a
      · subst hEq; simp
      · have h1 : a + 1 ≤ b := by omega
        have h2 : b - a = (b - (a + 1)) + 1 := by omega
        simp [hab, h1, h2, hEq]
    · simp [hab, show ¬ a + 1 ≤ b by omega, show ¬ b = a by omega]

/-- A byte read after a 4-byte store (R46, R54). -/
theorem read_store_word {m : Memory} (h : m.wf = true) (a : Nat) (v : Word) (b : Nat) :
    (m.store a v .word).read b = if a ≤ b ∧ b < a + 4 then byteOfWord v (b - a) else m.read b := by
  have hr := read_writeBytes h a (bytesOfWord v) b
  rw [show m.store a v .word = m.writeBytes a (bytesOfWord v) from rfl, hr]
  by_cases hab : a ≤ b
  · by_cases hlt : b < a + 4
    · have : b - a = 0 ∨ b - a = 1 ∨ b - a = 2 ∨ b - a = 3 := by omega
      rcases this with h | h | h | h <;> simp [hab, hlt, h, bytesOfWord]
    · have hn : (bytesOfWord v)[b - a]? = none := List.getElem?_eq_none (by simp [bytesOfWord]; omega)
      simp [hab, hlt, hn]
  · simp [hab]

/-- A byte read after a 1-byte store (R45). -/
theorem read_store_byte {m : Memory} (h : m.wf = true) (a : Nat) (v : Word) (b : Nat) :
    (m.store a v .byte).read b = if b = a then byteOfWord v 0 else m.read b := read_write h a b _

/-- A stored word loads back (R44, R46). -/
theorem load_store_word {m : Memory} (h : m.wf = true) (a : Nat) (v : Word) :
    (m.store a v .word).load a .word = v := by
  simp only [Memory.load, read_store_word h]
  rw [if_pos (by omega), if_pos (by omega), if_pos (by omega), if_pos (by omega)]
  simp

/-! ## Canonical memories that read alike are equal -/

theorem ext_of_wfFrom {m m' : Memory} {lo : Nat} (h : wfFrom lo m = true) (h' : wfFrom lo m' = true)
    (hr : ∀ a, m.read a = m'.read a) : m = m' := by
  induction m generalizing lo m' with
  | nil =>
    cases m' with
    | nil => rfl
    | cons c m' =>
      have hc := hr c.1
      simp only [wfFrom, Bool.and_eq_true] at h'
      simp [read_cons] at hc
      simp [← hc] at h'
  | cons c m ih =>
    simp only [wfFrom, Bool.and_eq_true, decide_eq_true_eq, bne_iff_ne, ne_eq] at h
    cases m' with
    | nil =>
      have hc := hr c.1
      simp [read_cons] at hc
      exact absurd hc h.1.2
    | cons c' m' =>
      simp only [wfFrom, Bool.and_eq_true, decide_eq_true_eq, bne_iff_ne, ne_eq] at h'
      have key : c.1 = c'.1 := by
        rcases Nat.lt_trichotomy c.1 c'.1 with hlt | heq | hgt
        · have hc := hr c.1
          simp only [read_cons, if_true, if_neg (show ¬ c'.1 = c.1 by omega)] at hc
          rw [read_of_lt_wfFrom h'.2 (by omega)] at hc
          exact absurd hc h.1.2
        · exact heq
        · have hc := hr c'.1
          simp only [read_cons, if_true, if_neg (show ¬ c.1 = c'.1 by omega)] at hc
          rw [read_of_lt_wfFrom h.2 (by omega)] at hc
          exact absurd hc.symm h'.1.2
      have hv : c.2 = c'.2 := by simpa [read_cons, key] using hr c.1
      have htail : m = m' := by
        refine ih h.2 (key ▸ h'.2) fun a => ?_
        by_cases ha : c.1 = a
        · rw [read_of_lt_wfFrom h.2 (by omega), read_of_lt_wfFrom h'.2 (by omega)]
        · have := hr a
          simpa [read_cons, ha, key ▸ ha] using this
      rw [Prod.ext key hv, htail]

/-- Equal memories are equal lists. -/
theorem ext_of_wf {m m' : Memory} (h : m.wf = true) (h' : m'.wf = true) (hr : ∀ a, m.read a = m'.read a) : m = m' :=
  ext_of_wfFrom h h' hr

/-- An address at or beyond the memory size reads as 0. -/
theorem read_of_within {m : Memory} {n a : Nat} (h : m.within n = true) (ha : n ≤ a) : m.read a = 0#8 := by
  induction m with
  | nil => rfl
  | cons c m ih =>
    have hc := within_cons.1 h
    rw [read_cons, if_neg (by omega)]
    exact ih hc.2

end Sys2Proof.Machine.Memory
end

