-- ==== Sys2Proof/Laws/State.lean ====
section
/-! SUPPORT. One lemma per field per update of `State`, true by `rfl`, so that no proof unfolds a record
update; and reading registers after a write. -/

namespace Sys2Proof.Machine

/-! ## Registers -/

@[simp] theorem RegFile.read_write (f : RegFile) (r q : Reg) (v : Word) :
    (f.write r v).read q = if q = r then v else f.read q := by
  cases r <;> cases q <;> rfl

theorem RegFile.write_read_self (f : RegFile) (r : Reg) : f.write r (f.read r) = f := by
  cases r <;> rfl

theorem RegFile.ext_read {f g : RegFile} (h : ∀ r, f.read r = g.read r) : f = g := by
  have h0 := h .eax; have h1 := h .ecx; have h2 := h .edx; have h3 := h .ebx
  have h4 := h .esp; have h5 := h .ebp; have h6 := h .esi; have h7 := h .edi
  cases f; cases g
  simp_all [RegFile.read]

theorem State.reg_eq (s : State) (r : Reg) : s.reg r = s.regs.read r := rfl

/-- Two states with the same register file read the same registers. -/
theorem State.reg_congr {s t : State} (h : s.regs = t.regs) (r : Reg) : s.reg r = t.reg r := by
  simp [State.reg, h]

@[simp] theorem State.reg_setReg (s : State) (r q : Reg) (v : Word) :
    (s.setReg r v).reg q = if q = r then v else s.reg q := RegFile.read_write s.regs r q v

@[simp] theorem State.reg_setPc (s : State) (t : Word) (q : Reg) : (s.setPc t).reg q = s.reg q := rfl
@[simp] theorem State.reg_setZf (s : State) (b : Bool) (q : Reg) : (s.setZf b).reg q = s.reg q := rfl
@[simp] theorem State.reg_setFlags (s : State) (z n o : Bool) (q : Reg) : (s.setFlags z n o).reg q = s.reg q := rfl
@[simp] theorem State.reg_setStatus (s : State) (v : Status) (q : Reg) : (s.setStatus v).reg q = s.reg q := rfl
@[simp] theorem State.reg_advanceCursor (s : State) (q : Reg) : (s.advanceCursor).reg q = s.reg q := rfl
@[simp] theorem reg_advancePc (s : State) (n : Nat) (q : Reg) : (advancePc n s).reg q = s.reg q := rfl
@[simp] theorem reg_outWrite (s : State) (x : IoItem) (q : Reg) : (outWrite x s).reg q = s.reg q := rfl

/-! ## `setReg` -/

@[simp] theorem State.regs_setReg (s : State) (r : Reg) (v : Word) : (s.setReg r v).regs = s.regs.write r v := rfl
@[simp] theorem State.pc_setReg (s : State) (r : Reg) (v : Word) : (s.setReg r v).pc = s.pc := rfl
@[simp] theorem State.zf_setReg (s : State) (r : Reg) (v : Word) : (s.setReg r v).zf = s.zf := rfl
@[simp] theorem State.sf_setReg (s : State) (r : Reg) (v : Word) : (s.setReg r v).sf = s.sf := rfl
@[simp] theorem State.of_setReg (s : State) (r : Reg) (v : Word) : (s.setReg r v).of = s.of := rfl
@[simp] theorem State.status_setReg (s : State) (r : Reg) (v : Word) : (s.setReg r v).status = s.status := rfl
@[simp] theorem State.memSize_setReg (s : State) (r : Reg) (v : Word) : (s.setReg r v).memSize = s.memSize := rfl
@[simp] theorem State.mem_setReg (s : State) (r : Reg) (v : Word) : (s.setReg r v).mem = s.mem := rfl
@[simp] theorem State.input_setReg (s : State) (r : Reg) (v : Word) : (s.setReg r v).input = s.input := rfl
@[simp] theorem State.cursor_setReg (s : State) (r : Reg) (v : Word) : (s.setReg r v).cursor = s.cursor := rfl
@[simp] theorem State.output_setReg (s : State) (r : Reg) (v : Word) : (s.setReg r v).output = s.output := rfl

/-! ## `setPc` -/

@[simp] theorem State.regs_setPc (s : State) (t : Word) : (s.setPc t).regs = s.regs := rfl
@[simp] theorem State.pc_setPc (s : State) (t : Word) : (s.setPc t).pc = t := rfl
@[simp] theorem State.zf_setPc (s : State) (t : Word) : (s.setPc t).zf = s.zf := rfl
@[simp] theorem State.sf_setPc (s : State) (t : Word) : (s.setPc t).sf = s.sf := rfl
@[simp] theorem State.of_setPc (s : State) (t : Word) : (s.setPc t).of = s.of := rfl
@[simp] theorem State.status_setPc (s : State) (t : Word) : (s.setPc t).status = s.status := rfl
@[simp] theorem State.memSize_setPc (s : State) (t : Word) : (s.setPc t).memSize = s.memSize := rfl
@[simp] theorem State.mem_setPc (s : State) (t : Word) : (s.setPc t).mem = s.mem := rfl
@[simp] theorem State.input_setPc (s : State) (t : Word) : (s.setPc t).input = s.input := rfl
@[simp] theorem State.cursor_setPc (s : State) (t : Word) : (s.setPc t).cursor = s.cursor := rfl
@[simp] theorem State.output_setPc (s : State) (t : Word) : (s.setPc t).output = s.output := rfl

/-! ## `setZf` -/

@[simp] theorem State.regs_setZf (s : State) (b : Bool) : (s.setZf b).regs = s.regs := rfl
@[simp] theorem State.pc_setZf (s : State) (b : Bool) : (s.setZf b).pc = s.pc := rfl
@[simp] theorem State.zf_setZf (s : State) (b : Bool) : (s.setZf b).zf = b := rfl
@[simp] theorem State.sf_setZf (s : State) (b : Bool) : (s.setZf b).sf = s.sf := rfl
@[simp] theorem State.of_setZf (s : State) (b : Bool) : (s.setZf b).of = s.of := rfl
@[simp] theorem State.status_setZf (s : State) (b : Bool) : (s.setZf b).status = s.status := rfl
@[simp] theorem State.memSize_setZf (s : State) (b : Bool) : (s.setZf b).memSize = s.memSize := rfl
@[simp] theorem State.mem_setZf (s : State) (b : Bool) : (s.setZf b).mem = s.mem := rfl
@[simp] theorem State.input_setZf (s : State) (b : Bool) : (s.setZf b).input = s.input := rfl
@[simp] theorem State.cursor_setZf (s : State) (b : Bool) : (s.setZf b).cursor = s.cursor := rfl
@[simp] theorem State.output_setZf (s : State) (b : Bool) : (s.setZf b).output = s.output := rfl

/-! ## `setFlags` -/

@[simp] theorem State.regs_setFlags (s : State) (z n o : Bool) : (s.setFlags z n o).regs = s.regs := rfl
@[simp] theorem State.pc_setFlags (s : State) (z n o : Bool) : (s.setFlags z n o).pc = s.pc := rfl
@[simp] theorem State.zf_setFlags (s : State) (z n o : Bool) : (s.setFlags z n o).zf = z := rfl
@[simp] theorem State.sf_setFlags (s : State) (z n o : Bool) : (s.setFlags z n o).sf = n := rfl
@[simp] theorem State.of_setFlags (s : State) (z n o : Bool) : (s.setFlags z n o).of = o := rfl
@[simp] theorem State.status_setFlags (s : State) (z n o : Bool) : (s.setFlags z n o).status = s.status := rfl
@[simp] theorem State.memSize_setFlags (s : State) (z n o : Bool) : (s.setFlags z n o).memSize = s.memSize := rfl
@[simp] theorem State.mem_setFlags (s : State) (z n o : Bool) : (s.setFlags z n o).mem = s.mem := rfl
@[simp] theorem State.input_setFlags (s : State) (z n o : Bool) : (s.setFlags z n o).input = s.input := rfl
@[simp] theorem State.cursor_setFlags (s : State) (z n o : Bool) : (s.setFlags z n o).cursor = s.cursor := rfl
@[simp] theorem State.output_setFlags (s : State) (z n o : Bool) : (s.setFlags z n o).output = s.output := rfl

/-! ## `setStatus` -/

@[simp] theorem State.regs_setStatus (s : State) (v : Status) : (s.setStatus v).regs = s.regs := rfl
@[simp] theorem State.pc_setStatus (s : State) (v : Status) : (s.setStatus v).pc = s.pc := rfl
@[simp] theorem State.zf_setStatus (s : State) (v : Status) : (s.setStatus v).zf = s.zf := rfl
@[simp] theorem State.sf_setStatus (s : State) (v : Status) : (s.setStatus v).sf = s.sf := rfl
@[simp] theorem State.of_setStatus (s : State) (v : Status) : (s.setStatus v).of = s.of := rfl
@[simp] theorem State.status_setStatus (s : State) (v : Status) : (s.setStatus v).status = v := rfl
@[simp] theorem State.memSize_setStatus (s : State) (v : Status) : (s.setStatus v).memSize = s.memSize := rfl
@[simp] theorem State.mem_setStatus (s : State) (v : Status) : (s.setStatus v).mem = s.mem := rfl
@[simp] theorem State.input_setStatus (s : State) (v : Status) : (s.setStatus v).input = s.input := rfl
@[simp] theorem State.cursor_setStatus (s : State) (v : Status) : (s.setStatus v).cursor = s.cursor := rfl
@[simp] theorem State.output_setStatus (s : State) (v : Status) : (s.setStatus v).output = s.output := rfl

/-! ## `advanceCursor` -/

@[simp] theorem State.regs_advanceCursor (s : State) : (s.advanceCursor).regs = s.regs := rfl
@[simp] theorem State.pc_advanceCursor (s : State) : (s.advanceCursor).pc = s.pc := rfl
@[simp] theorem State.zf_advanceCursor (s : State) : (s.advanceCursor).zf = s.zf := rfl
@[simp] theorem State.sf_advanceCursor (s : State) : (s.advanceCursor).sf = s.sf := rfl
@[simp] theorem State.of_advanceCursor (s : State) : (s.advanceCursor).of = s.of := rfl
@[simp] theorem State.status_advanceCursor (s : State) : (s.advanceCursor).status = s.status := rfl
@[simp] theorem State.memSize_advanceCursor (s : State) : (s.advanceCursor).memSize = s.memSize := rfl
@[simp] theorem State.mem_advanceCursor (s : State) : (s.advanceCursor).mem = s.mem := rfl
@[simp] theorem State.input_advanceCursor (s : State) : (s.advanceCursor).input = s.input := rfl
@[simp] theorem State.cursor_advanceCursor (s : State) : (s.advanceCursor).cursor = s.cursor + 1 := rfl
@[simp] theorem State.output_advanceCursor (s : State) : (s.advanceCursor).output = s.output := rfl

/-! ## `advancePc` -/

@[simp] theorem regs_advancePc (s : State) (n : Nat) : (advancePc n s).regs = s.regs := rfl
@[simp] theorem pc_advancePc (s : State) (n : Nat) : (advancePc n s).pc = s.pc + BitVec.ofNat 32 n := rfl
@[simp] theorem zf_advancePc (s : State) (n : Nat) : (advancePc n s).zf = s.zf := rfl
@[simp] theorem sf_advancePc (s : State) (n : Nat) : (advancePc n s).sf = s.sf := rfl
@[simp] theorem of_advancePc (s : State) (n : Nat) : (advancePc n s).of = s.of := rfl
@[simp] theorem status_advancePc (s : State) (n : Nat) : (advancePc n s).status = s.status := rfl
@[simp] theorem memSize_advancePc (s : State) (n : Nat) : (advancePc n s).memSize = s.memSize := rfl
@[simp] theorem mem_advancePc (s : State) (n : Nat) : (advancePc n s).mem = s.mem := rfl
@[simp] theorem input_advancePc (s : State) (n : Nat) : (advancePc n s).input = s.input := rfl
@[simp] theorem cursor_advancePc (s : State) (n : Nat) : (advancePc n s).cursor = s.cursor := rfl
@[simp] theorem output_advancePc (s : State) (n : Nat) : (advancePc n s).output = s.output := rfl

/-! ## `outWrite` -/

@[simp] theorem regs_outWrite (s : State) (x : IoItem) : (outWrite x s).regs = s.regs := rfl
@[simp] theorem pc_outWrite (s : State) (x : IoItem) : (outWrite x s).pc = s.pc := rfl
@[simp] theorem zf_outWrite (s : State) (x : IoItem) : (outWrite x s).zf = s.zf := rfl
@[simp] theorem sf_outWrite (s : State) (x : IoItem) : (outWrite x s).sf = s.sf := rfl
@[simp] theorem of_outWrite (s : State) (x : IoItem) : (outWrite x s).of = s.of := rfl
@[simp] theorem status_outWrite (s : State) (x : IoItem) : (outWrite x s).status = s.status := rfl
@[simp] theorem memSize_outWrite (s : State) (x : IoItem) : (outWrite x s).memSize = s.memSize := rfl
@[simp] theorem mem_outWrite (s : State) (x : IoItem) : (outWrite x s).mem = s.mem := rfl
@[simp] theorem input_outWrite (s : State) (x : IoItem) : (outWrite x s).input = s.input := rfl
@[simp] theorem cursor_outWrite (s : State) (x : IoItem) : (outWrite x s).cursor = s.cursor := rfl
@[simp] theorem output_outWrite (s : State) (x : IoItem) : (outWrite x s).output = s.output ++ [x] := rfl

/-! ## `offer` -/

@[simp] theorem State.regs_offer (q : Input) (s : State) : (s.offer q).regs = s.regs := rfl
@[simp] theorem State.pc_offer (q : Input) (s : State) : (s.offer q).pc = s.pc := rfl
@[simp] theorem State.zf_offer (q : Input) (s : State) : (s.offer q).zf = s.zf := rfl
@[simp] theorem State.sf_offer (q : Input) (s : State) : (s.offer q).sf = s.sf := rfl
@[simp] theorem State.of_offer (q : Input) (s : State) : (s.offer q).of = s.of := rfl
@[simp] theorem State.status_offer (q : Input) (s : State) : (s.offer q).status = s.status := rfl
@[simp] theorem State.memSize_offer (q : Input) (s : State) : (s.offer q).memSize = s.memSize := rfl
@[simp] theorem State.mem_offer (q : Input) (s : State) : (s.offer q).mem = s.mem := rfl
@[simp] theorem State.cursor_offer (q : Input) (s : State) : (s.offer q).cursor = s.cursor := rfl
@[simp] theorem State.output_offer (q : Input) (s : State) : (s.offer q).output = s.output := rfl
@[simp] theorem State.input_offer (q : Input) (s : State) : (s.offer q).input = q.listed (s.cursor + 1) := rfl
@[simp] theorem State.reg_offer (q : Input) (s : State) (r : Reg) : (s.offer q).reg r = s.reg r := rfl
@[simp] theorem State.offer_offer (p q : Input) (s : State) : (s.offer p).offer q = s.offer q := rfl
@[simp] theorem Input.listed_finite (items : List IoItem) (n : Nat) :
    (Input.finite items).listed n = ⟨items, false⟩ := rfl

end Sys2Proof.Machine
end

