-- ==== Sys2Proof/Laws/Ops.lean ====
section
/-! SUPPORT. One lemma per shared operation that says everything it can do: the bounds predicate, the memory
port and the accesses through it, the I/O ports, and the check-then-commit shapes. -/

namespace Sys2Proof.Machine

/-! ## The bounds predicate -/

theorem inBounds_iff {size : Nat} {a : Word} {n : Nat} :
    inBounds size a n = true ↔ 0 ≤ a.toInt ∧ a.toInt + (n : Int) ≤ (size : Int) := by
  simp [inBounds]

theorem State.inBounds_iff {s : State} {a : Word} {n : Nat} :
    s.inBounds a n = true ↔ 0 ≤ a.toInt ∧ a.toInt + (n : Int) ≤ (s.memSize.val : Int) := Machine.inBounds_iff

/-- A non-negative address word has the same signed and unsigned value. -/
theorem toInt_eq_toNat_of_nonneg {a : Word} (h : 0 ≤ a.toInt) : a.toInt = (a.toNat : Int) := by
  rw [BitVec.toInt_eq_toNat_cond] at h ⊢
  split
  · rfl
  · rename_i hn
    rw [if_neg hn] at h
    have := a.isLt
    omega

/-- An access in bounds lies inside the memory list's keys `[0, MEM_SIZE)`. -/
theorem State.toNat_add_le_of_inBounds {s : State} {a : Word} {n : Nat} (h : s.inBounds a n = true) :
    a.toNat + n ≤ s.memSize.val := by
  obtain ⟨h0, h1⟩ := State.inBounds_iff.1 h
  rw [toInt_eq_toNat_of_nonneg h0] at h1
  omega

/-- For an address word below 2^31 (every word whose bit 31 is 0), the bounds predicate in natural numbers. -/
theorem State.inBounds_iff_toNat {s : State} {a : Word} {n : Nat} :
    s.inBounds a n = true ↔ a.toNat < 2 ^ 31 ∧ a.toNat + n ≤ s.memSize.val := by
  rw [State.inBounds_iff, BitVec.toInt_eq_toNat_cond]
  have := a.isLt
  split <;> constructor <;> intro h <;> omega

@[simp] theorem State.inBounds_setReg (s : State) (r : Reg) (v a : Word) (n : Nat) :
    (s.setReg r v).inBounds a n = s.inBounds a n := rfl

/-! ## The memory port and the accesses through it -/

/-- Everything the port can do (R51). -/
theorem memPort_eq (q : PortRequest) (s : State) :
    memPort q s =
      if s.inBounds q.addr q.width.bytes then
        match q.kind with
        | .write => (.done, { s with mem := s.mem.store q.addr.toNat q.wdata q.width })
        | _ => (.data (s.mem.load q.addr.toNat q.width), s)
      else (.oob, s) := by
  unfold memPort
  split
  · cases q.kind <;> rfl
  · rfl

/-- `MemRead(a, 4)` (R44). -/
theorem memRead32_eq (a : Word) (s : State) :
    memRead32 a s = if s.inBounds a 4 then some (s.mem.load a.toNat .word) else none := by
  cases h : s.inBounds a 4 <;> simp [memRead32, memPort_eq, Width.bytes, h]

/-- `MemRead(a, 1)` (R43). -/
theorem memRead8_eq (a : Word) (s : State) :
    memRead8 a s = if s.inBounds a 1 then some (s.byteAt a.toNat) else none := by
  cases h : s.inBounds a 1 <;> simp [memRead8, memPort_eq, Width.bytes, h, Memory.load, State.byteAt]

/-- One byte of a fetch (R50). -/
theorem fetchByte_eq (a : Word) (s : State) :
    fetchByte a s = if s.inBounds a 1 then some (s.byteAt a.toNat) else none := by
  cases h : s.inBounds a 1 <;> simp [fetchByte, memPort_eq, Width.bytes, h, Memory.load, State.byteAt]

/-- A write changes nothing but memory, and memory only in bounds (R46, R47). -/
theorem memWrite32_eq (a v : Word) (s : State) :
    memWrite32 a v s = { s with mem := if s.inBounds a 4 then s.mem.store a.toNat v .word else s.mem } := by
  cases h : s.inBounds a 4 <;> simp [memWrite32, memPort_eq, Width.bytes, h]

/-- A write changes nothing but memory, and memory only in bounds (R45, R47). -/
theorem memWrite8_eq (a : Word) (v : Byte) (s : State) :
    memWrite8 a v s =
      { s with mem := if s.inBounds a 1 then s.mem.store a.toNat (v.setWidth 32) .byte else s.mem } := by
  cases h : s.inBounds a 1 <;> simp [memWrite8, memPort_eq, Width.bytes, h]

/-- The low byte of a zero-extended byte is the byte. -/
@[simp] theorem byteOfWord_setWidth (v : Byte) : byteOfWord (v.setWidth 32) 0 = v := by
  revert v; decide

/-! ## The I/O ports -/

/-- `InRead(BYTE)` (R64): EOF changes nothing; a delivered item moves the cursor by one. -/
theorem inReadByte_eq (s : State) :
    inReadByte s = (s.nextItem.map (IoItem.asByte s.cursor), if s.nextItem.isSome then s.advanceCursor else s) := by
  unfold inReadByte
  cases s.nextItem <;> rfl

/-- `InRead(INT)` (R64): EOF changes nothing; a delivered item moves the cursor by one. -/
theorem inReadInt_eq (s : State) :
    inReadInt s = (s.nextItem.map (IoItem.asWord s.cursor), if s.nextItem.isSome then s.advanceCursor else s) := by
  unfold inReadInt
  cases s.nextItem <;> rfl

/-- A listing of the first `n` items agrees with the sequence on them (R64). -/
theorem inputItem_listed {q : Input} {n k : Nat} (h : k < n) : inputItem (q.listed n) k = q.item k := by
  cases q with
  | finite items => simp only [inputItem, Input.listed, Input.item]; cases items[k]? <;> rfl
  | infinite item => simp [inputItem, Input.listed, Input.item, h]

/-- An item is delivered exactly where the sequence has one: always in an endless input, and before its end in
a finite one (R64). -/
theorem inputItem_isSome (q : InputSeq) (k : Nat) :
    (inputItem q k).isSome = true ↔ k < q.items.length ∨ q.endless = true := by
  unfold inputItem
  by_cases hk : k < q.items.length
  · simp [hk]
  · cases he : q.endless <;> simp [hk]

/-! ## Check, then commit -/

@[simp] theorem commitIf_true (f : State → State) (s : State) : commitIf true f s = .next (f s) := rfl

@[simp] theorem commitIf_false (f : State → State) (s : State) :
    commitIf false f s = .next (s.setStatus .invalidAddress) := rfl

@[simp] theorem commitWith_some {α : Type} (v : α) (f : α → State → State) (s : State) :
    commitWith (some v) f s = .next (f v s) := rfl

@[simp] theorem commitWith_none {α : Type} (f : α → State → State) (s : State) :
    commitWith (none : Option α) f s = .next (s.setStatus .invalidAddress) := rfl

/-- Taking an exception sets the status and nothing else (R109, R203, R205). -/
theorem takeException_eq (c : Cause) (s : State) : takeException c s = .next { s with status := c.status } := rfl

/-- A check-then-commit answers the committed state or the state with INVALID_ADDRESS, never a stop. -/
theorem commitIf_cases {ok : Bool} {f : State → State} {s : State} :
    (ok = true ∧ commitIf ok f s = .next (f s)) ∨
    (ok = false ∧ commitIf ok f s = .next (s.setStatus .invalidAddress)) := by
  cases ok <;> simp

/-- Everything a jump can do (R155). -/
theorem jumpIf_eq (taken : Bool) (dest : Word) (s : State) :
    jumpIf taken dest s =
      if taken then
        if s.inBounds dest 1 then .next (s.setPc dest) else .next (s.setStatus .invalidAddress)
      else .next (advancePc 5 s) := by
  unfold jumpIf
  cases taken
  · rfl
  · cases h : s.inBounds dest 1 <;> rfl

end Sys2Proof.Machine
end

