-- ==== Sys2Proof/Laws/Exec.lean ====
section
/-! SUPPORT. One lemma per meaning that says everything it can answer, as the fields it changes: proofs about `exec`
cite these and do not unfold the meanings. `raised s` is the state INVALID_ADDRESS leaves (R109). -/

namespace Sys2Proof.Machine

/-- The state `raise InvalidAddress()` leaves: `status` alone is changed (R109). -/
abbrev State.raised (s : State) : State := { s with status := .invalidAddress }

/-! ## Meanings that cannot raise -/

theorem exec_nop (s : State) : exec .nop s = .next { s with pc := s.pc + 1#32 } := rfl

theorem exec_halt (s : State) : exec .halt s = .next { s with status := .halted, pc := s.pc + 1#32 } := rfl

theorem exec_rrmovl (a b : Reg) (s : State) :
    exec (.rrmovl a b) s = .next { s with regs := s.regs.write b (s.reg a), pc := s.pc + 2#32 } := rfl

theorem exec_irmovl (b : Reg) (v : Word) (s : State) :
    exec (.irmovl b v) s = .next { s with regs := s.regs.write b v, pc := s.pc + 6#32 } := rfl

theorem commitAlu_eq (f : AluOp) (a b : Reg) (s : State) :
    commitAlu f a b s =
      { s with
        regs := s.regs.write b (aluOf f a b s).result, zf := (aluOf f a b s).zf, sf := (aluOf f a b s).sf,
        of := (aluOf f a b s).of, pc := s.pc + 2#32 } := rfl

theorem exec_addl (a b : Reg) (s : State) : exec (.addl a b) s = .next (commitAlu .add a b s) := rfl
theorem exec_subl (a b : Reg) (s : State) : exec (.subl a b) s = .next (commitAlu .sub a b s) := rfl
theorem exec_andl (a b : Reg) (s : State) : exec (.andl a b) s = .next (commitAlu .and a b s) := rfl
theorem exec_xorl (a b : Reg) (s : State) : exec (.xorl a b) s = .next (commitAlu .xor a b s) := rfl
theorem exec_mull (a b : Reg) (s : State) : exec (.mull a b) s = .next (commitAlu .mul a b s) := rfl

theorem exec_cmpl (a b : Reg) (s : State) :
    exec (.cmpl a b) s =
      .next { s with
        zf := (aluOf .sub a b s).zf, sf := (aluOf .sub a b s).sf, of := (aluOf .sub a b s).of, pc := s.pc + 2#32 } := rfl

/-! ## Loads -/

theorem exec_mrmovl (a b : Reg) (d : Word) (s : State) :
    exec (.mrmovl a b d) s =
      if s.inBounds (effAddr b d s) 4 then
        .next { s with regs := s.regs.write a (s.mem.load (effAddr b d s).toNat .word), pc := s.pc + 6#32 }
      else .next s.raised := by
  cases h : s.inBounds (effAddr b d s) 4 <;> simp only [exec, execMrmovl, memRead32_eq, h] <;> rfl

theorem exec_movsbl (a b : Reg) (d : Word) (s : State) :
    exec (.movsbl a b d) s =
      if s.inBounds (effAddr b d s) 1 then
        .next { s with regs := s.regs.write a ((s.byteAt (effAddr b d s).toNat).signExtend 32), pc := s.pc + 6#32 }
      else .next s.raised := by
  cases h : s.inBounds (effAddr b d s) 1 <;> simp only [exec, execMovsbl, memRead8_eq, h] <;> rfl

/-! ## Stores -/

theorem exec_rmmovl (a b : Reg) (d : Word) (s : State) :
    exec (.rmmovl a b d) s =
      if s.inBounds (effAddr b d s) 4 then
        .next { s with mem := s.mem.store (effAddr b d s).toNat (s.reg a) .word, pc := s.pc + 6#32 }
      else .next s.raised := by
  cases h : s.inBounds (effAddr b d s) 4 <;> simp only [exec, execRmmovl, h]
  · rfl
  · simp [memWrite32_eq, h, advancePc, State.setPc]

/-! ## Jumps -/

theorem exec_jmp (t : Word) (s : State) : exec (.jmp t) s = jumpIf true t s := rfl
theorem exec_jle (t : Word) (s : State) : exec (.jle t) s = jumpIf (condLe s.zf s.sf s.of) t s := rfl
theorem exec_jl (t : Word) (s : State) : exec (.jl t) s = jumpIf (condL s.sf s.of) t s := rfl
theorem exec_je (t : Word) (s : State) : exec (.je t) s = jumpIf (condE s.zf) t s := rfl
theorem exec_jne (t : Word) (s : State) : exec (.jne t) s = jumpIf (condNe s.zf) t s := rfl
theorem exec_jge (t : Word) (s : State) : exec (.jge t) s = jumpIf (condGe s.sf s.of) t s := rfl
theorem exec_jg (t : Word) (s : State) : exec (.jg t) s = jumpIf (condG s.zf s.sf s.of) t s := rfl

/-! ## Call, return, stack -/

theorem exec_call (t : Word) (s : State) :
    exec (.call t) s =
      if s.inBounds t 1 && s.inBounds (pushSlot s) 4 then
        .next { s with
          regs := s.regs.write .esp (pushSlot s), mem := s.mem.store (pushSlot s).toNat (s.pc + 5#32) .word, pc := t }
      else .next s.raised := by
  cases h : s.inBounds t 1 <;> cases h' : s.inBounds (pushSlot s) 4 <;> simp only [exec, execCall, h, h']
  iterate 3 rfl
  simp only [Bool.and_self, commitIf_true, memWrite32_eq, State.inBounds_setReg, h', if_true]
  rfl

theorem exec_ret (s : State) :
    exec .ret s =
      if s.inBounds (popSlot s) 4 then
        .next { s with
          regs := s.regs.write .esp (s.reg .esp + 4#32), pc := s.mem.load (popSlot s).toNat .word }
      else .next s.raised := by
  cases h : s.inBounds (popSlot s) 4 <;> simp only [exec, execRet, memRead32_eq, h] <;> rfl

theorem exec_pushl (a : Reg) (s : State) :
    exec (.pushl a) s =
      if s.inBounds (pushSlot s) 4 then
        .next { s with
          regs := s.regs.write .esp (pushSlot s)
          mem := s.mem.store (pushSlot s).toNat (if a = .esp then pushSlot s else s.reg a) .word
          pc := s.pc + 2#32 }
      else .next s.raised := by
  cases h : s.inBounds (pushSlot s) 4 <;> simp only [exec, execPushl, h]
  · rfl
  · simp only [commitIf_true, memWrite32_eq, State.reg_setReg, if_true, State.inBounds_setReg, h]
    rfl

theorem exec_popl (a : Reg) (s : State) :
    exec (.popl a) s =
      if s.inBounds (popSlot s) 4 then
        .next { s with
          regs := (s.regs.write a (s.mem.load (popSlot s).toNat .word)).write .esp
            ((if a = .esp then s.mem.load (popSlot s).toNat .word else s.reg .esp) + 4#32)
          pc := s.pc + 2#32 }
      else .next s.raised := by
  cases h : s.inBounds (popSlot s) 4 <;> simp only [exec, execPopl, memRead32_eq, h]
  · rfl
  · simp [State.setReg, advancePc, State.setPc, State.reg, eq_comm]

/-! ## Input and output -/

theorem exec_readb (a : Reg) (d : Word) (s : State) :
    exec (.readb a d) s =
      if s.inBounds (effAddr a d s) 1 then
        match s.nextItem with
        | none => .next { s with zf := true, pc := s.pc + 6#32 }
        | some item =>
          .next { s with
            zf := false, mem := s.mem.write (effAddr a d s).toNat (IoItem.asByte s.cursor item)
            cursor := s.cursor + 1, pc := s.pc + 6#32 }
      else .next s.raised := by
  cases h : s.inBounds (effAddr a d s) 1 <;> simp only [exec, execReadb, h, inReadByte]
  · rfl
  · cases hi : s.nextItem with
    | none => simp [hi, commitInput, advancePc, State.setPc, State.setZf]
    | some item =>
      have h2 : s.advanceCursor.inBounds (effAddr a d s) 1 = true := h
      simp only [commitIf_true, hi, commitInput, memWrite8_eq, h2, Memory.store, byteOfWord_setWidth, if_true]
      rfl

theorem exec_readl (a : Reg) (d : Word) (s : State) :
    exec (.readl a d) s =
      if s.inBounds (effAddr a d s) 4 then
        match s.nextItem with
        | none => .next { s with zf := true, pc := s.pc + 6#32 }
        | some item =>
          .next { s with
            zf := false, mem := s.mem.store (effAddr a d s).toNat (IoItem.asWord s.cursor item) .word
            cursor := s.cursor + 1, pc := s.pc + 6#32 }
      else .next s.raised := by
  cases h : s.inBounds (effAddr a d s) 4 <;> simp only [exec, execReadl, h, inReadInt]
  · rfl
  · cases hi : s.nextItem with
    | none => simp [hi, commitInput, advancePc, State.setPc, State.setZf]
    | some item =>
      have h2 : s.advanceCursor.inBounds (effAddr a d s) 4 = true := h
      simp only [commitIf_true, hi, commitInput, memWrite32_eq, h2, if_true]
      rfl

theorem exec_writeb (a : Reg) (d : Word) (s : State) :
    exec (.writeb a d) s =
      if s.inBounds (effAddr a d s) 1 then
        .next { s with output := s.output ++ [.byte (s.byteAt (effAddr a d s).toNat)], pc := s.pc + 6#32 }
      else .next s.raised := by
  cases h : s.inBounds (effAddr a d s) 1 <;> simp only [exec, execWriteb, memRead8_eq, h] <;> rfl

theorem exec_writel (a : Reg) (d : Word) (s : State) :
    exec (.writel a d) s =
      if s.inBounds (effAddr a d s) 4 then
        .next { s with output := s.output ++ [.word (s.mem.load (effAddr a d s).toNat .word)], pc := s.pc + 6#32 }
      else .next s.raised := by
  cases h : s.inBounds (effAddr a d s) 4 <;> simp only [exec, execWritel, memRead32_eq, h] <;> rfl

end Sys2Proof.Machine
end

