-- ==== Sys2Proof/Laws/Load.lean ====
section
/-! SUPPORT. What each operation of the loader answers when it succeeds, so that no proof unfolds it (R222 to R224). -/

namespace Sys2Proof.Machine

@[simp] theorem Directive.textAddr_text (a : Word) (bs : List Byte) : (Directive.text a bs).textAddr = some a := rfl
@[simp] theorem Directive.textAddr_byte (a : Word) (b : Byte) : (Directive.byte a b).textAddr = none := rfl
@[simp] theorem Directive.textAddr_long (a v : Word) : (Directive.long a v).textAddr = none := rfl
@[simp] theorem Directive.textAddr_size (n : Word) : (Directive.size n).textAddr = none := rfl

/-- A poke succeeds exactly when it writes no byte or all its bytes are in bounds (R223). -/
theorem Loading.poke_eq_ok {l l' : Loading} {a : Word} {bs : List Byte} :
    l.poke a bs = .ok l' ↔
      (bs = [] ∨ inBounds l.memSize.val a bs.length = true) ∧ l' = { l with mem := l.mem.writeBytes a.toNat bs } := by
  unfold Loading.poke
  by_cases h : (bs.isEmpty || inBounds l.memSize.val a bs.length) = true
  · rw [if_pos h]
    simp only [Bool.or_eq_true, List.isEmpty_iff] at h
    exact ⟨fun e => ⟨h, (Except.ok.inj e).symm⟩, fun e => congrArg _ e.2.symm⟩
  · rw [if_neg h]
    simp only [Bool.or_eq_true, List.isEmpty_iff] at h
    simp [h]

/-- Before a `.size` only a `.size` succeeds, of a non-negative size the host can allocate (R222). -/
theorem loadDirective_none_eq_ok {hostLimit : Nat} {d : Directive} {l : Loading} :
    loadDirective hostLimit none d = .ok l ↔
      ∃ n, d = .size n ∧ 0 ≤ n.toInt ∧ n.toNat ≤ hostLimit ∧ l = ⟨Fin.ofNat (2 ^ 31) n.toNat, [], none⟩ := by
  cases d with
  | size n =>
    constructor
    · intro h
      simp only [loadDirective] at h
      split at h
      · rename_i hn
        exact ⟨n, rfl, hn.1, hn.2, (Except.ok.inj h).symm⟩
      · cases h
    · rintro ⟨m, hm, h0, hl, rfl⟩
      cases hm
      exact if_pos ⟨h0, hl⟩
  | text | byte | long => simp [loadDirective]

/-- A memory that `.size` of a non-negative size creates has that size (R222). -/
theorem memSize_ofNat_toNat {n : Word} (h : 0 ≤ n.toInt) : (Fin.ofNat (2 ^ 31) n.toNat).val = n.toNat := by
  have h1 := toInt_eq_toNat_of_nonneg h
  have h2 := BitVec.toInt_lt (x := n)
  show n.toNat % 2 ^ 31 = n.toNat
  omega

/-- After the `.size` a `.text`, `.byte` or `.long` succeeds exactly when it writes inside memory, and a `.text` only
as the first (R223, R224). -/
theorem loadDirective_some_eq_ok {hostLimit : Nat} {l l' : Loading} {d : Directive} :
    loadDirective hostLimit (some l) d = .ok l' ↔
      d.insideMemory l.memSize.val = true ∧
      ((∃ a bs, d = .text a bs ∧ l.entry = none ∧
          l' = { l with entry := some a, mem := l.mem.writeBytes a.toNat bs }) ∨
        (∃ a b, d = .byte a b ∧ l' = { l with mem := l.mem.writeBytes a.toNat [b] }) ∨
        ∃ a v, d = .long a v ∧ l' = { l with mem := l.mem.writeBytes a.toNat (bytesOfWord v) }) := by
  cases d with
  | size n => simp [loadDirective]
  | text a bs =>
    cases he : l.entry with
    | some e => simp [loadDirective, he]
    | none => simp [loadDirective, he, Loading.poke_eq_ok, Directive.insideMemory, inBounds]
  | byte a b => simp [loadDirective, Loading.poke_eq_ok, Directive.insideMemory, inBounds]
  | long a v => simp [loadDirective, Loading.poke_eq_ok, Directive.insideMemory, inBounds, bytesOfWord]

end Sys2Proof.Machine
end

