-- ==== Sys2Proof/Laws/PerInstr.lean ====
section
/-! SUPPORT. Statements about every instruction as syntax, one lemma per constructor. The family
`CanonicalEncoding`: the fields the encoder writes are legal by the tables of WellFormed.lean, which were written
apart from the encoder, their unused register fields hold `F`, and the length is the table's (R74, R75, R78). -/

namespace Sys2Proof.Laws.CanonicalEncoding

/-- The fields of `i` are legal and canonical, and as many bytes are written as R78 gives its opcode. -/
def Statement (i : Instr) : Prop :=
  i.toRaw.wellFormed = true ∧ i.toRaw.canonical = true ∧ (encode i).length = Raw.length i.toRaw.opcode

/-- Legal and canonical fields, by which register fields the opcode uses (R74, R75). -/
def Legal (r : Raw) : Prop := r.wellFormed = true ∧ r.canonical = true

theorem legal_AB {op : Byte} (h : (Raw.knownOpcode op && Raw.usesA op && Raw.usesB op) = true) (a b : Reg) (v : Word) :
    Legal ⟨op, a.code, b.code, v⟩ := by
  simp only [Bool.and_eq_true] at h
  simp [Legal, Raw.wellFormed, Raw.fieldsInRange, Raw.canonical, h, Reg.code_le]

theorem legal_A {op : Byte} (h : (Raw.knownOpcode op && Raw.usesA op && !Raw.usesB op) = true) (a : Reg) (v : Word) :
    Legal ⟨op, a.code, 0xF, v⟩ := by
  simp only [Bool.and_eq_true, Bool.not_eq_true'] at h
  simp [Legal, Raw.wellFormed, Raw.fieldsInRange, Raw.canonical, h, Reg.code_le]

theorem legal_B {op : Byte} (h : (Raw.knownOpcode op && !Raw.usesA op && Raw.usesB op) = true) (b : Reg) (v : Word) :
    Legal ⟨op, 0xF, b.code, v⟩ := by
  simp only [Bool.and_eq_true, Bool.not_eq_true'] at h
  simp [Legal, Raw.wellFormed, Raw.fieldsInRange, Raw.canonical, h, Reg.code_le]

theorem legal_none {op : Byte} (h : (Raw.knownOpcode op && !Raw.usesA op && !Raw.usesB op) = true) (v : Word) :
    Legal ⟨op, 0xF, 0xF, v⟩ := by
  simp only [Bool.and_eq_true, Bool.not_eq_true'] at h
  simp [Legal, Raw.wellFormed, Raw.fieldsInRange, Raw.canonical, h]

theorem statement_of {i : Instr} (h : Legal i.toRaw) (hl : i.length = Raw.length i.toRaw.opcode) : Statement i :=
  ⟨h.1, h.2, (length_encode i).trans hl⟩

theorem nop : Statement .nop := statement_of (legal_none rfl _) rfl
theorem halt : Statement .halt := statement_of (legal_none rfl _) rfl
theorem rrmovl (a b : Reg) : Statement (.rrmovl a b) := statement_of (legal_AB rfl a b _) rfl
theorem irmovl (b : Reg) (v : Word) : Statement (.irmovl b v) := statement_of (legal_B rfl b v) rfl
theorem rmmovl (a b : Reg) (d : Word) : Statement (.rmmovl a b d) := statement_of (legal_AB rfl a b d) rfl
theorem mrmovl (a b : Reg) (d : Word) : Statement (.mrmovl a b d) := statement_of (legal_AB rfl a b d) rfl
theorem addl (a b : Reg) : Statement (.addl a b) := statement_of (legal_AB rfl a b _) rfl
theorem subl (a b : Reg) : Statement (.subl a b) := statement_of (legal_AB rfl a b _) rfl
theorem andl (a b : Reg) : Statement (.andl a b) := statement_of (legal_AB rfl a b _) rfl
theorem xorl (a b : Reg) : Statement (.xorl a b) := statement_of (legal_AB rfl a b _) rfl
theorem mull (a b : Reg) : Statement (.mull a b) := statement_of (legal_AB rfl a b _) rfl
theorem cmpl (a b : Reg) : Statement (.cmpl a b) := statement_of (legal_AB rfl a b _) rfl
theorem jmp (t : Word) : Statement (.jmp t) := statement_of (legal_none rfl t) rfl
theorem jle (t : Word) : Statement (.jle t) := statement_of (legal_none rfl t) rfl
theorem jl (t : Word) : Statement (.jl t) := statement_of (legal_none rfl t) rfl
theorem je (t : Word) : Statement (.je t) := statement_of (legal_none rfl t) rfl
theorem jne (t : Word) : Statement (.jne t) := statement_of (legal_none rfl t) rfl
theorem jge (t : Word) : Statement (.jge t) := statement_of (legal_none rfl t) rfl
theorem jg (t : Word) : Statement (.jg t) := statement_of (legal_none rfl t) rfl
theorem call (t : Word) : Statement (.call t) := statement_of (legal_none rfl t) rfl
theorem ret : Statement .ret := statement_of (legal_none rfl _) rfl
theorem pushl (a : Reg) : Statement (.pushl a) := statement_of (legal_A rfl a _) rfl
theorem popl (a : Reg) : Statement (.popl a) := statement_of (legal_A rfl a _) rfl
theorem readb (a : Reg) (d : Word) : Statement (.readb a d) := statement_of (legal_A rfl a d) rfl
theorem readl (a : Reg) (d : Word) : Statement (.readl a d) := statement_of (legal_A rfl a d) rfl
theorem writeb (a : Reg) (d : Word) : Statement (.writeb a d) := statement_of (legal_A rfl a d) rfl
theorem writel (a : Reg) (d : Word) : Statement (.writel a d) := statement_of (legal_A rfl a d) rfl
theorem movsbl (a b : Reg) (d : Word) : Statement (.movsbl a b d) := statement_of (legal_AB rfl a b d) rfl

/-- Every instruction's encoding is canonical. -/
theorem statement (i : Instr) : Statement i := by
  cases i with
  | nop => exact nop
  | halt => exact halt
  | rrmovl a b => exact rrmovl a b
  | irmovl b v => exact irmovl b v
  | rmmovl a b d => exact rmmovl a b d
  | mrmovl a b d => exact mrmovl a b d
  | addl a b => exact addl a b
  | subl a b => exact subl a b
  | andl a b => exact andl a b
  | xorl a b => exact xorl a b
  | mull a b => exact mull a b
  | cmpl a b => exact cmpl a b
  | jmp t => exact jmp t
  | jle t => exact jle t
  | jl t => exact jl t
  | je t => exact je t
  | jne t => exact jne t
  | jge t => exact jge t
  | jg t => exact jg t
  | call t => exact call t
  | ret => exact ret
  | pushl a => exact pushl a
  | popl a => exact popl a
  | readb a d => exact readb a d
  | readl a d => exact readl a d
  | writeb a d => exact writeb a d
  | writel a d => exact writel a d
  | movsbl a b d => exact movsbl a b d

end Sys2Proof.Laws.CanonicalEncoding
end

