-- ==== Sys2Proof/Laws/Step.lean ====
section
/-! SUPPORT. What a step can do: the fetch of an instruction's bytes, and the three shapes of a step. -/

namespace Sys2Proof.Machine

/-- The next byte address of a fetch in bounds does not wrap. -/
theorem toNat_succ_of_inBounds {s : State} {a : Word} {n : Nat} (h : s.inBounds a (n + 1) = true) :
    (a + 1#32).toNat = a.toNat + 1 := by
  have h1 := State.toNat_add_le_of_inBounds h
  have h2 := s.memSize.isLt
  rw [BitVec.toNat_add]
  simp only [BitVec.toNat_ofNat]
  omega

/-- The first byte of the bytes at an address. -/
theorem State.bytesAt_succ (s : State) (a n : Nat) : s.bytesAt a (n + 1) = s.byteAt a :: s.bytesAt (a + 1) n := by
  simp only [State.bytesAt, List.range_succ_eq_map, List.map_cons, List.map_map, Nat.add_zero]
  congr 1
  refine List.map_congr_left fun k _ => ?_
  show s.byteAt (a + (k + 1)) = s.byteAt (a + 1 + k)
  rw [show a + (k + 1) = a + 1 + k by omega]

/-- A fetch whose bytes are all in bounds reads them from memory (R50, R105). -/
theorem fetchBytes_eq {s : State} {a : Word} {n : Nat} (h : s.inBounds a n = true) :
    fetchBytes n a s = some (s.bytesAt a.toNat n) := by
  induction n generalizing a with
  | zero => rfl
  | succ n ih =>
    have hb := State.inBounds_iff_toNat.1 h
    have hm := s.memSize.isLt
    have h1 : s.inBounds a 1 = true := State.inBounds_iff_toNat.2 ⟨hb.1, by omega⟩
    have hsucc := toNat_succ_of_inBounds h
    have htail : fetchBytes n (a + 1#32) s = some (s.bytesAt (a.toNat + 1) n) := by
      cases n with
      | zero => rfl
      | succ n =>
        rw [← hsucc]
        exact ih (State.inBounds_iff_toNat.2 ⟨by omega, by omega⟩)
    unfold fetchBytes
    rw [fetchByte_eq, h1, if_pos rfl, htail]
    rw [State.bytesAt_succ]
    rfl

/-- FETCH and DECODE as the rules give them (R103 to R107). -/
theorem fetchInstr_eq (s : State) :
    fetchInstr s =
      if s.inBounds s.pc 1 then
        match encodedLength (s.byteAt s.pc.toNat) with
        | none => .error .invalidInstruction
        | some len =>
          if s.inBounds s.pc len then
            match decode (s.bytesAt s.pc.toNat len) with
            | .ok (i, _) => .ok i
            | .error e => .error (causeOf e)
          else .error .invalidAddress
      else .error .invalidAddress := by
  unfold fetchInstr
  rw [fetchByte_eq]
  cases h : s.inBounds s.pc 1
  · rfl
  · simp only [if_true]
    cases encodedLength (s.byteAt s.pc.toNat) with
    | none => rfl
    | some len =>
      cases hl : s.inBounds s.pc len
      · simp [hl]
      · simp only [hl, if_true, fetchBytes_eq hl] <;> rfl

/-- A step of a running state is the exception its fetch raises or the meaning of the instruction it fetched. -/
theorem step_running {s : State} (h : s.status = .running) :
    step s = match fetchInstr s with
      | .error c => takeException c s
      | .ok i => exec i s := by
  simp only [step, h] <;> rfl

/-- In a terminal status there is no step (R102). -/
theorem step_terminal {s : State} (h : s.status ≠ .running) : step s = .fault .runOver := by
  unfold step
  cases hs : s.status <;> first | exact absurd hs h | rfl

/-- What a next state comes from: a running state, and a raise or an executed instruction. -/
theorem step_next {s t : State} (h : step s = .next t) :
    s.status = .running ∧
      ((∃ c, fetchInstr s = .error c ∧ t = s.setStatus c.status) ∨ (∃ i, fetchInstr s = .ok i ∧ exec i s = .next t)) := by
  by_cases hs : s.status = .running
  · refine ⟨hs, ?_⟩
    rw [step_running hs] at h
    cases hf : fetchInstr s with
    | error c =>
      rw [hf] at h
      exact .inl ⟨c, rfl, by simpa [takeException] using h.symm⟩
    | ok i =>
      rw [hf] at h
      exact .inr ⟨i, rfl, h⟩
  · rw [step_terminal hs] at h
    cases h

end Sys2Proof.Machine
end

