-- ==== Sys2Proof/Tests/Slice0.lean ====
section
/-! SUPPORT. The model's own tests: words written out from 30_encoding.md, the checks of WellFormed, one-step vectors
of 95_test_vectors.md (named beside each), reset, load and `withFetchWord`, and for each obligation a concrete state
and operands that meet its hypotheses (`witness_<Name>`). -/

namespace Sys2Proof.Tests

open Machine

/-- The reset state with `MEM_SIZE`, the bytes at address 0, `ENTRY` 0 and an empty input (95_test_vectors.md,
Conventions). -/
def machine (memSize : MemSize) (bytes : List Byte) : State :=
  State.ofRun ⟨memSize, 0#32, Memory.writeBytes [] 0 bytes, .finite []⟩

/-- The state with the bytes `bs` at address `a`. -/
def poke (s : State) (a : Nat) (bs : List Byte) : State := { s with mem := s.mem.writeBytes a bs }

/-- The state with an input of these items. -/
def feed (s : State) (items : List IoItem) : State := { s with input := ⟨items, false⟩ }

/-- The next state of an answer, if it is one. -/
def nextOf : Result → Option State
  | .next t => some t
  | .fault _ => none
  | .refused _ => none

/-- What `f` sees in the next state of an answer. -/
def after {α : Type} (r : Result) (f : State → α) : Option α := (nextOf r).map f

/-! ## Decoding: bytes written out from the opcode map R77, every constructor -/

theorem test_decode_nop_halt_ret : decode [0x00#8] = .ok (.nop, []) ∧ decode [0x10#8] = .ok (.halt, []) ∧
    decode [0x90#8] = .ok (.ret, []) := by decide

theorem test_decode_moves :
    decode [0x20#8, 0b0000_0001#8] = .ok (.rrmovl .eax .ecx, []) ∧
    decode [0x30#8, 0b1111_0110#8, 0xFE#8, 0xFF#8, 0xFF#8, 0xFF#8] = .ok (.irmovl .esi (-2#32), []) ∧
    decode [0x40#8, 0b0000_0001#8, 0xFC#8, 0xFF#8, 0xFF#8, 0xFF#8] = .ok (.rmmovl .eax .ecx (-4#32), []) ∧
    decode [0x50#8, 0b0000_0001#8, 0x08#8, 0x00#8, 0x00#8, 0x00#8] = .ok (.mrmovl .eax .ecx 8#32, []) := by decide

theorem test_decode_alu :
    decode [0x60#8, 0b0001_0000#8] = .ok (.addl .ecx .eax, []) ∧
    decode [0x61#8, 0b0010_0001#8] = .ok (.subl .edx .ecx, []) ∧
    decode [0x62#8, 0b0011_0111#8] = .ok (.andl .ebx .edi, []) ∧
    decode [0x63#8, 0b0101_0100#8] = .ok (.xorl .ebp .esp, []) ∧
    decode [0x64#8, 0b0001_0000#8] = .ok (.mull .ecx .eax, []) ∧
    decode [0x65#8, 0b0110_0000#8] = .ok (.cmpl .esi .eax, []) := by decide

theorem test_decode_jumps_call :
    decode [0x70#8, 0x78#8, 0x56#8, 0x34#8, 0x12#8] = .ok (.jmp 0x12345678#32, []) ∧
    decode [0x71#8, 0x0C#8, 0x00#8, 0x00#8, 0x00#8] = .ok (.jle 12#32, []) ∧
    decode [0x72#8, 0x10#8, 0x00#8, 0x00#8, 0x00#8] = .ok (.jl 16#32, []) ∧
    decode [0x73#8, 0x08#8, 0x00#8, 0x00#8, 0x00#8] = .ok (.je 8#32, []) ∧
    decode [0x74#8, 0x00#8, 0x01#8, 0x00#8, 0x00#8] = .ok (.jne 0x100#32, []) ∧
    decode [0x75#8, 0x0C#8, 0x00#8, 0x00#8, 0x00#8] = .ok (.jge 12#32, []) ∧
    decode [0x76#8, 0x0C#8, 0x00#8, 0x00#8, 0x00#8] = .ok (.jg 12#32, []) ∧
    decode [0x80#8, 0x20#8, 0x00#8, 0x00#8, 0x00#8] = .ok (.call 0x20#32, []) := by decide

theorem test_decode_stack : decode [0xA0#8, 0b0000_1111#8] = .ok (.pushl .eax, []) ∧
    decode [0xB0#8, 0b0001_1111#8] = .ok (.popl .ecx, []) := by decide

theorem test_decode_io_movsbl :
    decode [0xC0#8, 0b0011_1111#8, 0x08#8, 0x00#8, 0x00#8, 0x00#8] = .ok (.readb .ebx 8#32, []) ∧
    decode [0xC1#8, 0b0011_1111#8, 0x0D#8, 0x00#8, 0x00#8, 0x00#8] = .ok (.readl .ebx 13#32, []) ∧
    decode [0xD0#8, 0b0011_1111#8, 0x08#8, 0x00#8, 0x00#8, 0x00#8] = .ok (.writeb .ebx 8#32, []) ∧
    decode [0xD1#8, 0b0011_1111#8, 0x0E#8, 0x00#8, 0x00#8, 0x00#8] = .ok (.writel .ebx 14#32, []) ∧
    decode [0xE0#8, 0b0000_0011#8, 0x08#8, 0x00#8, 0x00#8, 0x00#8] = .ok (.movsbl .eax .ebx 8#32, []) := by decide

/-- Table words: the first byte in the low bits, operand bytes above `nbits` zero. -/
theorem test_decodeTableWord : decodeTableWord 16 0x1020 = some (.rrmovl .ecx .eax) ∧
    decodeTableWord 8 0x70 = some (.jmp 0#32) ∧ decodeTableWord 48 0xFFFFFFFEF630 = some (.irmovl .esi (-2#32)) ∧
    decodeTableWord 8 0x66 = none := by decide

/-! ## WellFormed: an ill-formed term for each check -/

theorem test_refuses_unknown_opcode : Raw.wellFormed ⟨0x66#8, 0#4, 0#4, 0#32⟩ = false ∧
    decode [0x66#8] = .error .unknownOpcode ∧ decode [0x01#8, 0, 0, 0, 0, 0] = .error .unknownOpcode := by decide

theorem test_refuses_rA_above_7 : Raw.wellFormed ⟨0x20#8, 0xF#4, 0#4, 0#32⟩ = false ∧
    decode [0x20#8, 0xF0#8] = .error .badRegister ∧ decode [0x60#8, 0x80#8] = .error .badRegister := by decide

theorem test_refuses_rB_above_7 : Raw.wellFormed ⟨0x30#8, 0xF#4, 0xF#4, 1#32⟩ = false ∧
    decode [0x30#8, 0xFF#8, 1, 0, 0, 0] = .error .badRegister ∧
    decode [0x20#8, 0x08#8] = .error .badRegister := by decide

theorem test_refuses_truncated : decode [] = .error .truncated ∧ decode [0x70#8, 0, 0, 0] = .error .truncated ∧
    decode [0x20#8] = .error .truncated := by decide

/-- A well-formed term whose unused field is not `F` is not canonical, and decodes all the same (D2). -/
theorem test_unused_field : Raw.wellFormed ⟨0xA0#8, 0#4, 5#4, 0#32⟩ = true ∧
    Raw.canonical ⟨0xA0#8, 0#4, 5#4, 0#32⟩ = false ∧ decode [0xA0#8, 0x05#8] = .ok (.pushl .eax, []) := by decide

/-! ## One step of each instruction (95_test_vectors.md section 2) -/

/-- D1. -/
theorem test_nop : after (step (machine 8 [0x00]))
    (fun t => (t.pc, t.status)) = some (1#32, .running) := by decide

/-- D2. -/
theorem test_halt : after (step (machine 8 [0x10]))
    (fun t => (t.pc, t.status)) = some (1#32, .halted) := by decide

/-- M1. -/
theorem test_rrmovl : after (step ((machine 8 [0x20, 0x01]).setReg .eax 0xFFFFFFF9#32))
    (fun t => (t.reg .ecx, t.reg .eax, t.pc, t.status))
      = some (0xFFFFFFF9#32, 0xFFFFFFF9#32, 2#32, .running) := by decide

/-- M4. -/
theorem test_irmovl : after (step (machine 8 [0x30, 0x06, 0xFE, 0xFF, 0xFF, 0xFF]))
    (fun t => (t.reg .esi, t.pc, t.status)) = some (0xFFFFFFFE#32, 6#32, .running) := by decide

/-- M6. -/
theorem test_rmmovl_last_word :
    after (step (((machine 16 [0x40, 0x01, 0x08, 0x00, 0x00, 0x00]).setReg .eax 0x11223344#32).setReg .ecx 0x4#32))
    (fun t => (t.bytesAt 12 4, t.pc, t.status)) = some ([0x44#8, 0x33#8, 0x22#8, 0x11#8], 6#32, .running) := by decide

/-- M9. -/
theorem test_rmmovl_wraps : after
    (step (((machine 16 [0x40, 0x01, 0x01, 0x00, 0x00, 0x00]).setReg .eax 0x55#32).setReg .ecx 0xFFFFFFFF#32))
    (fun t => (t.bytesAt 0 4, t.pc, t.status)) = some ([0x55#8, 0#8, 0#8, 0#8], 6#32, .running) := by decide

/-- M11. -/
theorem test_mrmovl_same_register :
    after (step (poke (machine 16 [0x50, 0x11, 0x08, 0x00, 0x00, 0x00]) 8 [0x78#8, 0x56#8, 0x34#8, 0x12#8]))
    (fun t => (t.reg .ecx, t.pc, t.status)) = some (0x12345678#32, 6#32, .running) := by decide

/-- M12. -/
theorem test_mrmovl_out_of_bounds :
    after (step ((machine 16 [0x50, 0x01, 0x0D, 0x00, 0x00, 0x00]).setReg .eax 0x5#32))
    (fun t => (t.reg .eax, t.pc, t.status)) = some (5#32, 0#32, .invalidAddress) := by decide

/-- A4. -/
theorem test_addl_min : after (step (((machine 8 [0x60, 0x10]).setReg .eax 0x80000000#32).setReg .ecx 0x80000000#32))
    (fun t => (t.reg .eax, t.zf, t.sf, t.of, t.pc, t.status))
      = some (0x0#32, true, false, true, 2#32, .running) := by decide

/-- A2. -/
theorem test_addl_wrap : after (step (((machine 8 [0x60, 0x10]).setReg .eax 0x7FFFFFFF#32).setReg .ecx 0x1#32))
    (fun t => (t.reg .eax, t.zf, t.sf, t.of, t.pc, t.status))
      = some (0x80000000#32, false, true, true, 2#32, .running) := by decide

/-- A10. -/
theorem test_subl_special : after (step (((machine 8 [0x61, 0x10]).setReg .eax 0x0#32).setReg .ecx 0x80000000#32))
    (fun t => (t.reg .eax, t.zf, t.sf, t.of, t.pc, t.status))
      = some (0x80000000#32, false, true, false, 2#32, .running) := by decide

/-- A15. -/
theorem test_subl_overflow : after (step (((machine 8 [0x61, 0x10]).setReg .eax 0x1#32).setReg .ecx 0x80000000#32))
    (fun t => (t.reg .eax, t.zf, t.sf, t.of, t.pc, t.status))
      = some (0x80000001#32, false, true, true, 2#32, .running) := by decide

/-- A21. -/
theorem test_andl : after (step (((machine 8 [0x62, 0x10]).setReg .eax 0xFFFF0000#32).setReg .ecx 0xFF00FF0#32))
    (fun t => (t.reg .eax, t.zf, t.sf, t.of, t.pc, t.status))
      = some (0xFF00000#32, false, false, false, 2#32, .running) := by decide

/-- A25. -/
theorem test_xorl : after (step (((machine 8 [0x63, 0x10]).setReg .eax 0x12345678#32).setReg .ecx 0xFFFFFFFF#32))
    (fun t => (t.reg .eax, t.zf, t.sf, t.of, t.pc, t.status))
      = some (0xEDCBA987#32, false, true, false, 2#32, .running) := by decide

/-- A35. -/
theorem test_mull_fits : after (step (((machine 8 [0x64, 0x10]).setReg .eax 0xFFFF0000#32).setReg .ecx 0x8000#32))
    (fun t => (t.reg .eax, t.zf, t.sf, t.of, t.pc, t.status))
      = some (0x80000000#32, false, true, false, 2#32, .running) := by decide

/-- A36. -/
theorem test_mull_overflow : after (step (((machine 8 [0x64, 0x10]).setReg .eax 0x10000#32).setReg .ecx 0x8000#32))
    (fun t => (t.reg .eax, t.zf, t.sf, t.of, t.pc, t.status))
      = some (0x80000000#32, false, true, true, 2#32, .running) := by decide

/-- A41. -/
theorem test_cmpl : after (step (((machine 8 [0x65, 0x10]).setReg .eax 0x80000000#32).setReg .ecx 0x1#32))
    (fun t => (t.reg .eax, t.zf, t.sf, t.of, t.pc, t.status))
      = some (0x80000000#32, false, false, true, 2#32, .running) := by decide

/-- J1. -/
theorem test_jmp : after (step ((machine 16 [0x70, 0x0A, 0x00, 0x00, 0x00]).setFlags false false false))
    (fun t => (t.zf, t.sf, t.of, t.pc, t.status)) = some (false, false, false, 10#32, .running) := by decide

/-- J2. -/
theorem test_jmp_out_of_bounds : after (step ((machine 16 [0x70, 0x10, 0x00, 0x00, 0x00]).setFlags false false false))
    (fun t => (t.zf, t.sf, t.of, t.pc, t.status)) = some (false, false, false, 0#32, .invalidAddress) := by decide

/-- J4. -/
theorem test_jne_not_taken : after (step ((machine 16 [0x74, 0x00, 0x01, 0x00, 0x00]).setFlags true false false))
    (fun t => (t.zf, t.sf, t.of, t.pc, t.status)) = some (true, false, false, 5#32, .running) := by decide

/-- J5. -/
theorem test_jne_out_of_bounds : after (step ((machine 16 [0x74, 0x00, 0x01, 0x00, 0x00]).setFlags false false false))
    (fun t => (t.zf, t.sf, t.of, t.pc, t.status)) = some (false, false, false, 0#32, .invalidAddress) := by decide

/-- J6. -/
theorem test_jl : after (step ((machine 16 [0x72, 0x0C, 0x00, 0x00, 0x00]).setFlags false true false))
    (fun t => (t.zf, t.sf, t.of, t.pc, t.status)) = some (false, true, false, 12#32, .running) := by decide

/-- J7. -/
theorem test_jg : after (step ((machine 16 [0x76, 0x0C, 0x00, 0x00, 0x00]).setFlags false true false))
    (fun t => (t.zf, t.sf, t.of, t.pc, t.status)) = some (false, true, false, 5#32, .running) := by decide

/-- J8. -/
theorem test_jle : after (step ((machine 16 [0x71, 0x0C, 0x00, 0x00, 0x00]).setFlags true false false))
    (fun t => (t.zf, t.sf, t.of, t.pc, t.status)) = some (true, false, false, 12#32, .running) := by decide

/-- J9. -/
theorem test_jge : after (step ((machine 16 [0x75, 0x0C, 0x00, 0x00, 0x00]).setFlags false true true))
    (fun t => (t.zf, t.sf, t.of, t.pc, t.status)) = some (false, true, true, 12#32, .running) := by decide

/-- J10. -/
theorem test_je : after (step ((machine 16 [0x73, 0x0C, 0x00, 0x00, 0x00]).setFlags false true true))
    (fun t => (t.zf, t.sf, t.of, t.pc, t.status)) = some (false, true, true, 5#32, .running) := by decide

/-- K1. -/
theorem test_call : after (step ((machine 64 [0x80, 0x20, 0x00, 0x00, 0x00]).setReg .esp 0x40#32))
    (fun t => (t.reg .esp, t.bytesAt 60 4, t.pc, t.status))
      = some (60#32, [5#8, 0#8, 0#8, 0#8], 0x20#32, .running) := by decide

/-- K3. -/
theorem test_call_out_of_bounds : after (step ((machine 64 [0x80, 0x40, 0x00, 0x00, 0x00]).setReg .esp 0x40#32))
    (fun t => (t.reg .esp, t.bytesAt 60 4, t.pc, t.status))
      = some (64#32, [0#8, 0#8, 0#8, 0#8], 0#32, .invalidAddress) := by decide

/-- K5. -/
theorem test_ret_unchecked : after (step ((poke (machine 64 [0x90]) 60 [0#8, 1#8, 0#8, 0#8]).setReg .esp 0x3C#32))
    (fun t => (t.reg .esp, t.pc, t.status)) = some (64#32, 0x100#32, .running) := by decide

/-- K6. -/
theorem test_ret_out_of_bounds : after (step ((machine 64 [0x90]).setReg .esp 0x3E#32))
    (fun t => (t.reg .esp, t.pc, t.status)) = some (62#32, 0#32, .invalidAddress) := by decide

/-- K12. -/
theorem test_pushl_esp : after (step ((machine 64 [0xA0, 0x4F]).setReg .esp 0x20#32))
    (fun t => (t.reg .esp, t.bytesAt 28 4, t.pc, t.status))
      = some (28#32, [0x1C#8, 0#8, 0#8, 0#8], 2#32, .running) := by decide

/-- K8. -/
theorem test_pushl_out_of_bounds :
    after (step (((machine 64 [0xA0, 0x0F]).setReg .esp 0x2#32).setReg .eax 0xFFFFFFFF#32))
    (fun t => (t.reg .esp, t.pc, t.status)) = some (2#32, 0#32, .invalidAddress) := by decide

/-- K9. -/
theorem test_popl :
    after (step ((poke (machine 64 [0xB0, 0x1F]) 60 [0xFE#8, 0xFF#8, 0xFF#8, 0xFF#8]).setReg .esp 0x3C#32))
    (fun t => (t.reg .ecx, t.reg .esp, t.pc, t.status)) = some (0xFFFFFFFE#32, 64#32, 2#32, .running) := by decide

/-- K10. -/
theorem test_popl_esp : after (step ((poke (machine 64 [0xB0, 0x4F]) 60 [0x10#8, 0#8, 0#8, 0#8]).setReg .esp 0x3C#32))
    (fun t => (t.reg .esp, t.pc, t.status)) = some (20#32, 2#32, .running) := by decide

/-- I1. -/
theorem test_readb : after (step (feed (machine 16 [0xC0, 0x3F, 0x08, 0x00, 0x00, 0x00]) [.byte 0x41#8]))
    (fun t => (t.byteAt 8, t.zf, t.cursor, t.pc)) = some (0x41#8, false, 1, 6#32) := by decide

/-- I2. -/
theorem test_readb_eof : after (step ((machine 16 [0xC0, 0x3F, 0x08, 0x00, 0x00, 0x00]).setFlags false true true))
    (fun t => (t.zf, t.sf, t.of, t.byteAt 8, t.pc, t.status))
      = some (true, true, true, 0#8, 6#32, .running) := by decide

/-- I4. -/
theorem test_readl : after
    (step ((feed (machine 16 [0xC1, 0x3F, 0x08, 0x00, 0x00, 0x00]) [.word 0x01020304#32]).setFlags true true true))
    (fun t => (t.bytesAt 8 4, t.zf, t.sf, t.pc)) = some ([4#8, 3#8, 2#8, 1#8], false, true, 6#32) := by decide

/-- I5. -/
theorem test_readl_out_of_bounds : after (step (feed (machine 16 [0xC1, 0x3F, 0x0D, 0x00, 0x00, 0x00]) [.word 7#32]))
    (fun t => (t.nextItem, t.pc, t.status)) = some (some (.word 7#32), 0#32, .invalidAddress) := by decide

/-- I6. -/
theorem test_writeb : after (step (poke (machine 16 [0xD0, 0x3F, 0x08, 0x00, 0x00, 0x00]) 8 [0xFF#8]))
    (fun t => (t.output, t.pc, t.status)) = some ([.byte 0xFF#8], 6#32, .running) := by decide

/-- I7. -/
theorem test_writel :
    after (step (poke (machine 16 [0xD1, 0x3F, 0x08, 0x00, 0x00, 0x00]) 8 [0xFF#8, 0xFF#8, 0xFF#8, 0x7F#8]))
    (fun t => (t.output, t.pc, t.status)) = some ([.word 0x7FFFFFFF#32], 6#32, .running) := by decide

/-- I8. -/
theorem test_writel_out_of_bounds : after (step (machine 16 [0xD1, 0x3F, 0x0E, 0x00, 0x00, 0x00]))
    (fun t => (t.output, t.pc, t.status)) = some ([], 0#32, .invalidAddress) := by decide

/-- X1. -/
theorem test_movsbl : after (step (poke (machine 16 [0xE0, 0x03, 0x08, 0x00, 0x00, 0x00]) 8 [0x80#8]))
    (fun t => (t.reg .eax, t.pc, t.status)) = some (0xFFFFFF80#32, 6#32, .running) := by decide

/-- X5. -/
theorem test_movsbl_out_of_bounds :
    after (step ((machine 16 [0xE0, 0x03, 0x10, 0x00, 0x00, 0x00]).setReg .eax 0x3#32))
    (fun t => (t.reg .eax, t.pc, t.status)) = some (3#32, 0#32, .invalidAddress) := by decide

/-! ## Fetch and decode (95_test_vectors.md section 2.8) -/

/-- D5. -/
theorem test_step_unknown_opcode_before_length : after (step (machine 1 [0x66]))
    (fun t => (t.pc, t.status)) = some (0#32, .invalidInstruction) := by decide

/-- D6. -/
theorem test_step_straddles_end : after (step (machine 4 [0x70, 0x00, 0x00, 0x00]))
    (fun t => (t.pc, t.status)) = some (0#32, .invalidAddress) := by decide

/-- D7. -/
theorem test_step_unused_field : after (step ((machine 8 [0xA0, 0x05]).setReg .esp 0x8#32))
    (fun t => (t.reg .esp, t.pc, t.status)) = some (4#32, 2#32, .running) := by decide

/-- D11. -/
theorem test_step_bad_register : after (step (machine 8 [0x60, 0x90]))
    (fun t => (t.zf, t.sf, t.of, t.pc, t.status)) = some (false, false, false, 0#32, .invalidInstruction) := by decide

/-- Scenario 5, step 2. -/
theorem test_step_fetch_out_of_bounds : after (step ((machine 6 [0x30, 0xF0, 0x05, 0x00, 0x00, 0x00]).setPc 6#32))
    (fun t => (t.pc, t.status)) = some (6#32, .invalidAddress) := by decide

/-- 95_test_vectors.md section 2.8, the bounds predicate with `MEM_SIZE = 16`. -/
theorem test_inBounds : inBounds 16 12#32 4 = true ∧ inBounds 16 13#32 4 = false ∧ inBounds 16 15#32 1 = true ∧
    inBounds 16 16#32 1 = false ∧
    inBounds 16 0xFFFFFFFF#32 1 = false ∧ inBounds 16 0x80000000#32 4 = false := by decide

/-! ## Reset, load, `withFetchWord` -/

/-- R32 and log entry 1. -/
theorem test_reset : State.reset.status = .running ∧ State.reset.pc = 0#32 ∧ State.reset.reg .esp = 0#32 ∧
    State.reset.mem = [] ∧ State.reset.cursor = 0 ∧ State.reset.output = [] := by decide

/-- The very next step runs the placed word, from reset and from a state that is over. -/
theorem test_withFetchWord :
    after (step (State.reset.withFetchWord 48 0xFFFFFFFEF630)) (fun t => (t.reg .esi, t.pc)) = some (-2#32, 6#32) ∧
    after (step (((machine 0 []).setStatus .invalidAddress).withFetchWord 8 0x10)) (fun t => t.status) = some .halted := by decide

/-- P1: `.size 20`, `.text 0 …` (95_test_vectors.md section 3.1). -/
def programP1 : List Directive :=
  [.size 0x20#32, .text 0#32 [0x30, 0xF0, 5, 0, 0, 0, 0x30, 0xF1, 3, 0, 0, 0, 0x60, 0x10, 0x10]]

/-- P6: data after the program, the last directive that writes a byte winning (R221, R223). -/
def programP6 : List Directive :=
  [.size 0x40#32, .long 0x2F#32 0x11223344#32, .text 0#32 [0x10], .byte 0x30#32 0x80#8, .byte 0x31#32 0x7F#8]

theorem test_load_P1 : ((loadProgram (2 ^ 31 - 1) programP1 (.finite [])).toOption.map fun p =>
    (p.memSize, p.entry, Memory.read p.initMem 13, Memory.read p.initMem 15)) = some (32, 0#32, 0x10#8, 0#8) := by decide

theorem test_load_order : ((loadProgram (2 ^ 31 - 1) programP6 (.finite [])).toOption.map fun p =>
    [0x2F, 0x30, 0x31, 0x32].map (Memory.read p.initMem)) = some [0x44#8, 0x80#8, 0x7F#8, 0x11#8] := by decide

/-- The error of a load, if it is one. -/
def loadError (r : Except LoadError RunParams) : Option LoadError :=
  match r with
  | .error e => some e
  | .ok _ => none

theorem test_load_errors :
    loadError (loadProgram 64 [.text 0#32 [0x10]] (.finite [])) = some .sizeMissing ∧
    loadError (loadProgram 64 [.size 8#32, .size 8#32] (.finite [])) = some .sizeRepeated ∧
    loadError (loadProgram 64 [.size 0xFFFFFFFF#32] (.finite [])) = some .allocationError ∧
    loadError (loadProgram 64 [.size 65#32] (.finite [])) = some .allocationError ∧
    loadError (loadProgram 64 [.size 4#32, .long 1#32 0#32] (.finite [])) = some .outOfBounds ∧
    loadError (loadProgram 64 [.size 4#32] (.finite [])) = some .textMissing ∧
    loadError (loadProgram 64 [.size 4#32, .text 0#32 [0], .text 1#32 [0]] (.finite [])) = some .textRepeated := by decide

/-- R6, R64: step with an infinite input whose item `k` is the byte `0x41 + k`, five items read. -/
theorem test_infinite_input : after (stepOn (.infinite fun k => .byte (0x41#8 + BitVec.ofNat 8 k))
    { machine 16 [0xC0, 0x3F, 0x08, 0x00, 0x00, 0x00] with cursor := 5 })
    (fun t => (t.byteAt 8, t.zf, t.cursor, t.pc)) = some (0x46#8, false, 6, 6#32) := by decide

/-! ## Witnesses: states and operands that meet the hypotheses of the obligations -/

/-- A running state with 64 bytes of memory, `halt` at 0, the word 4 at 32, esp = 32, ebx = 8, and two input items. -/
def wit : State :=
  poke (feed (((machine 64 [0x10]).setReg .esp 32#32).setReg .ebx 8#32) [.byte 0x41#8, .word 7#32]) 32 [4, 0, 0, 0]

/-- `wit` at the end of its memory: `pc` is `a` and the bytes there are `bs`. -/
def witAt (a : Word) (bs : List Byte) : State := poke (wit.setPc a) a.toNat bs

/-- One instruction of each constructor, none of which writes edi. -/
def witInstrs : List Instr :=
  [.nop, .halt, .rrmovl .ebx .eax, .irmovl .eax 5#32, .rmmovl .eax .ebx 52#32, .mrmovl .eax .ebx 52#32,
    .addl .ebx .eax, .subl .ebx .eax, .andl .ebx .eax, .xorl .ebx .eax, .mull .ebx .eax, .cmpl .ebx .eax,
    .jmp 63#32, .jle 63#32, .jl 63#32, .je 63#32, .jne 63#32, .jge 63#32, .jg 63#32] ++
  [.call 63#32, .ret, .pushl .eax, .popl .eax, .readb .ebx 55#32, .readl .ebx 52#32, .writeb .ebx 55#32,
    .writel .ebx 52#32, .movsbl .eax .ebx 55#32]

theorem witness_ResetMeetsInvariant : Memory.wf [(3, 1#8), (63, 2#8)] = true ∧
    Memory.within (64 : MemSize).val [(3, 1#8), (63, 2#8)] = true := by decide

theorem witness_LoadedProgramMeetsInvariant :
    ∃ p, loadProgram (2 ^ 31 - 1) programP6 (.finite []) = .ok p := ⟨_, rfl⟩

theorem witness_LoadAppliesDirectivesInOrder :
    ∃ p, loadProgram (2 ^ 31 - 1) programP1 (.finite []) = .ok p := ⟨_, rfl⟩

theorem witness_DecodeEncodeAgree :
    decode [0xA0#8, 0x0F#8, 0x99#8] = .ok (.pushl .eax, [0x99#8]) ∧
    Raw.canonical ⟨0xA0#8, highNibble 0x0F#8, lowNibble 0x0F#8, 0⟩ = true := by decide

theorem witness_DecoderAcceptsLegalOnly :
    Raw.knownOpcode 0x66#8 = false ∧ Raw.knownOpcode 0x20#8 = true ∧ [0x20#8].length < Raw.length 0x20#8 ∧
    Raw.length 0x20#8 ≤ [0x20#8, 0x08#8].length ∧ Raw.fieldsInRange ⟨0x20#8, 0#4, 8#4, 0⟩ = false ∧
    Raw.fieldsInRange ⟨0x20#8, 7#4, 7#4, 0⟩ = true := by decide

theorem witness_UnusedNibbleIgnored :
    Raw.hasRegisterByte 0x30#8 = true ∧ Raw.usesA 0x30#8 = false ∧ (encode (.irmovl .eax 1#32)).getD 0 0 = 0x30#8 ∧
    Raw.hasRegisterByte 0xA0#8 = true ∧ Raw.usesB 0xA0#8 = false ∧ (encode (.pushl .eax)).getD 0 0 = 0xA0#8 := by decide

theorem witness_StepRunsDecodedInstruction : (witAt 62#32 [0x20#8, 0x31#8]).status = .running ∧
    (witAt 62#32 [0x20#8, 0x31#8]).holdsAtPc (.rrmovl .ebx .ecx) := ⟨rfl, by decide, by decide⟩

/-- A terminal status, and each clause at the end of memory. -/
theorem witness_StepFollowsCausePriority :
    (wit.setStatus .halted).status ≠ .running ∧
    (witAt 64#32 []).status = .running ∧ (witAt 64#32 []).inBounds 64#32 1 = false ∧
    (witAt 63#32 [0x66]).inBounds 63#32 1 = true ∧ Raw.knownOpcode ((witAt 63#32 [0x66]).byteAt 63) = false ∧
    Raw.knownOpcode ((witAt 63#32 [0x20]).byteAt 63) = true ∧ (witAt 63#32 [0x20]).inBounds 63#32 2 = false ∧
    (witAt 62#32 [0x20, 0x80]).inBounds 62#32 2 = true ∧ Raw.fieldsInRange ⟨0x20#8, 8#4, 0#4, 0⟩ = false ∧
    Raw.fieldsInRange ⟨0x20#8, 7#4, 0#4, 0⟩ = true := by decide

theorem witness_RunOverExactlyWhenNotRunning : (∃ t, step wit = .next t) ∧ wit.status = .running ∧
    (wit.setStatus .invalidAddress).status ≠ .running := ⟨⟨_, rfl⟩, by decide, by decide⟩

theorem witness_ExceptionChangesStatusOnly :
    (∃ t, step (witAt 64#32 []) = .next t ∧ t.status = .invalidAddress) ∧
    (∃ t, step (witAt 63#32 [0x66]) = .next t ∧ t.status = .invalidInstruction) := ⟨⟨_, rfl, rfl⟩, ⟨_, rfl, rfl⟩⟩

theorem witness_HaltedSetByHaltAlone : (∃ t, step (witAt 63#32 [0x10]) = .next t ∧ t.status = .halted) ∧
    (∃ t, step (witAt 63#32 [0x00]) = .next t ∧ t.status = .running) := ⟨⟨_, rfl, rfl⟩, ⟨_, rfl, rfl⟩⟩

theorem witness_InvalidInstructionCauses :
    (∃ t, step (witAt 63#32 [0x66]) = .next t ∧ t.status = .invalidInstruction) ∧
    (∃ t, step (witAt 62#32 [0x20, 0x08]) = .next t ∧ t.status = .invalidInstruction) ∧
    (∃ t, step (witAt 63#32 [0x20]) = .next t ∧ t.status = .invalidAddress) :=
  ⟨⟨_, rfl, rfl⟩, ⟨_, rfl, rfl⟩, ⟨_, rfl, rfl⟩⟩

/-- Every constructor's checks pass somewhere at the last address they may, and those that check an address fail one
byte further. -/
theorem witness_CompletesOrTakesInvalidAddress : (witInstrs.all fun i => i.addressOk wit) = true ∧
    ([.rmmovl .eax .ebx 53#32, .mrmovl .eax .ebx 53#32, .movsbl .eax .ebx 56#32, .jmp 64#32, .jle 64#32, .je 64#32,
      .call 64#32, .readb .ebx 56#32, .readl .ebx 53#32, .writeb .ebx 56#32, .writel .ebx 53#32] : List Instr).any
      (·.addressOk (wit.setZf true)) = false ∧
    ([.ret, .pushl .eax, .popl .eax, .call 0#32] : List Instr).any (·.addressOk (wit.setReg .esp 0xFFFFFFFF#32))
      = false := by decide

/-- All 28 constructors run in `wit` and none of these writes edi. -/
theorem witness_RegisterFrame :
    (witInstrs.all fun i => (nextOf (exec i wit)).isSome && !i.writesReg .edi) = true := by decide

theorem witness_FlagFrame : (∃ t, exec (.mrmovl .eax .ebx 52#32) wit = .next t) ∧
    Instr.writesSfOf (.readb .ebx 55#32) = false ∧ Instr.writesZf (.mrmovl .eax .ebx 52#32) = false :=
  ⟨⟨_, rfl⟩, rfl, rfl⟩

theorem witness_MemoryFrame : wit.mem.wf = true ∧ (∃ t, exec (.pushl .eax) wit = .next t) ∧
    Instr.storeSite (.pushl .eax) wit = some (28#32, 4) ∧ Instr.storeSite (.popl .eax) wit = none :=
  ⟨by decide, ⟨_, rfl⟩, by decide, rfl⟩

theorem witness_PortFrame : (∃ t, exec (.readb .ebx 55#32) wit = .next t ∧ t.cursor = 1) ∧
    (∃ t, exec (.writeb .ebx 55#32) wit = .next t ∧ t.output = [.byte 0#8]) := ⟨⟨_, rfl, rfl⟩, ⟨_, rfl, rfl⟩⟩

theorem witness_StepKeepsInvariant : wit.Inv ∧ ∃ t, step wit = .next t :=
  ⟨⟨by decide, by decide, by decide⟩, ⟨_, rfl⟩⟩

/-- One item read and one step to go: the other input agrees on the next item alone. -/
theorem witness_RunIgnoresUnreadInput :
    let s := wit.advanceCursor
    let q : InputSeq := ⟨[.byte 0#8, .word 7#32, .byte 9#8], false⟩
    (∀ k, k < s.cursor + 1 → s.cursor ≤ k → inputItem q k = inputItem s.input k) ∧
      inputItem q 0 ≠ inputItem s.input 0 ∧ inputItem q 2 ≠ inputItem s.input 2 := by decide

theorem witness_AccessesAreLittleEndianAndBounded : wit.mem.wf = true ∧ wit.inBounds 63#32 1 = true ∧
    wit.inBounds 64#32 1 = false ∧ wit.inBounds 60#32 4 = true ∧ wit.inBounds 61#32 4 = false := by decide

theorem witness_MixedWidthReadsAfterWrite : wit.mem.wf = true ∧ wit.inBounds 60#32 4 = true ∧ 3 < 4 := by decide

/-- `rmmovl %eax, -2(%ebx)` at 0 stores at 6 the word whose first two bytes are `rrmovl %ecx, %eax`. -/
theorem witness_StoredInstructionRunsNext :
    let s := wit.setReg .eax 0x1020#32
    s.mem.wf = true ∧ s.status = .running ∧ s.reg .ebx + (-2#32) = s.pc + 6#32 ∧ s.inBounds (s.pc + 6#32) 4 = true ∧
      (Instr.rrmovl .ecx .eax).length ≤ 4 ∧
      encode (.rrmovl .ecx .eax) = (bytesOfWord (s.reg .eax)).take (Instr.rrmovl .ecx .eax).length ∧
      (nextOf (exec (.rmmovl .eax .ebx (-2#32)) s)).isSome = true := by decide

theorem witness_FetchWordRunsNext : wit.mem.wf = true ∧ decodeTableWord 16 0x1020 = some (.rrmovl .ecx .eax) ∧
    (witAt 58#32 []).status = .running ∧ (witAt 58#32 []).inBounds 58#32 6 = true := by decide

theorem witness_NopAdvancesOneByte : (witAt 63#32 []).status = .running ∧ (witAt 63#32 []).inBounds 63#32 1 = true ∧
    (witAt 63#32 []).byteAt 63 = 0#8 := by decide

theorem witness_RmmovlStoresWord : wit.mem.wf = true ∧ wit.inBounds (wit.reg .ebx + 52#32) 4 = true ∧
    wit.inBounds (wit.reg .ebx + 53#32) 4 = false := by decide

theorem witness_LoadsWordOrSignedByte :
    wit.inBounds (wit.reg .ebx + 52#32) 4 = true ∧ wit.inBounds (wit.reg .ebx + 55#32) 1 = true ∧
    wit.inBounds (wit.reg .ebx + 53#32) 4 = false ∧ wit.inBounds (wit.reg .ebx + 56#32) 1 = false := by decide

/-- ebx = 8, eax = 0: `addl %ebx, %eax` is the pair with result 8. -/
theorem witness_ZeroAndSignFlagsOfWrappedResult :
    (Instr.addl .ebx .eax, 8#32) =
      (Instr.addl .ebx .eax, BitVec.ofInt 32 ((wit.reg .eax).toInt + (wit.reg .ebx).toInt)) := by decide

theorem witness_AndlXorlResult :
    (Instr.xorl .ebx .eax, 0x63#8, 8#32) = (Instr.xorl .ebx .eax, 0x63#8, wit.reg .eax ^^^ wit.reg .ebx) := by decide

/-- The exceptional pair of R138 and an ordinary one. -/
theorem witness_JumpsAfterCmplFollowSignedOrder :
    let s := wit.setReg .ecx 0x80000000#32
    (∃ t, exec (.cmpl .ecx .eax) s = .next t) ∧ (∃ t, exec (.cmpl .ebx .eax) s = .next t) ∧
      s.inBounds 63#32 1 = true ∧ (s.reg .eax = 0#32 ∧ s.reg .ecx = 0x80000000#32) ∧
      ¬(s.reg .eax = 0#32 ∧ s.reg .ebx = 0x80000000#32) := ⟨⟨_, rfl⟩, ⟨_, rfl⟩, by decide, by decide, by decide⟩

theorem witness_JumpsFollowTheirConditions :
    (Instr.jne 63#32, 0x74#8, true) = (Instr.jne 63#32, 0x74#8, !wit.zf) ∧ wit.inBounds 63#32 1 = true := by decide

theorem witness_JumpTargetCheckedOnlyWhenTaken :
    (Instr.jne 64#32, true) = (Instr.jne 64#32, !wit.zf) ∧ wit.inBounds 64#32 1 = false ∧
    (Instr.je 64#32, false) = (Instr.je 64#32, wit.zf) := by decide

theorem witness_CallPushesReturnAddress :
    wit.mem.wf = true ∧ wit.inBounds 63#32 1 = true ∧ wit.inBounds (wit.reg .esp - 4#32) 4 = true ∧
    wit.inBounds 64#32 1 = false ∧ (wit.setReg .esp 3#32).inBounds (3#32 - 4#32) 4 = false := by decide

theorem witness_RetPopsReturnAddress : (wit.setReg .esp 60#32).inBounds 60#32 4 = true ∧
    (wit.setReg .esp 61#32).inBounds 61#32 4 = false := by decide

theorem witness_PushlStoresRegister : wit.mem.wf = true ∧ (wit.setReg .esp 4#32).inBounds (4#32 - 4#32) 4 = true ∧
    (wit.setReg .esp 3#32).inBounds (3#32 - 4#32) 4 = false := by decide

theorem witness_PoplLoadsRegister : (wit.setReg .esp 60#32).inBounds ((wit.setReg .esp 60#32).reg .esp) 4 = true ∧
    (wit.setReg .esp 61#32).inBounds ((wit.setReg .esp 61#32).reg .esp) 4 = false := by decide

theorem witness_PushThenPopRestores : wit.mem.wf = true ∧ Reg.eax ≠ .esp ∧ Reg.ecx ≠ .esp ∧
    wit.inBounds (wit.reg .esp - 4#32) 4 = true ∧ (nextOf (exec (.pushl .eax) wit)).isSome = true := by decide

/-- With `u` the state the call leaves. -/
theorem witness_CallThenRetReturns : wit.mem.wf = true ∧ wit.inBounds 63#32 1 = true ∧
    wit.inBounds (wit.reg .esp - 4#32) 4 = true ∧ ∃ t, exec (.call 63#32) wit = .next t :=
  ⟨by decide, by decide, by decide, ⟨_, rfl⟩⟩

theorem witness_ReadsAtEndOfInputSetZf :
    (feed wit []).inBounds (wit.reg .ebx + 55#32) 1 = true ∧ (feed wit []).nextItem = none ∧
    (feed wit []).inBounds (wit.reg .ebx + 52#32) 4 = true ∧ wit.inBounds (wit.reg .ebx + 56#32) 1 = false ∧
    wit.inBounds (wit.reg .ebx + 53#32) 4 = false := by decide

theorem witness_ReadbStoresNextByte : wit.mem.wf = true ∧ wit.inBounds (wit.reg .ebx + 55#32) 1 = true ∧
    wit.nextItem = some (.byte 0x41#8) := by decide

theorem witness_ReadlStoresNextWord : wit.advanceCursor.mem.wf = true ∧
    wit.advanceCursor.inBounds (wit.advanceCursor.reg .ebx + 52#32) 4 = true ∧
    wit.advanceCursor.nextItem = some (.word 7#32) := by decide

theorem witness_WritesAppendItem :
    wit.inBounds (wit.reg .ebx + 55#32) 1 = true ∧ wit.inBounds (wit.reg .ebx + 52#32) 4 = true ∧
    wit.inBounds (wit.reg .ebx + 56#32) 1 = false ∧ wit.inBounds (wit.reg .ebx + 53#32) 4 = false := by decide

theorem witness_EndOfInputIsFinal : (feed wit []).nextItem = none := by decide

/-- The last address each kind of directive may write, and the next; and a load that succeeds. -/
theorem witness_LoadSucceedsExactlyWhenRulesHold :
    Directive.insideMemory 64 (.long 60#32 1#32) = true ∧ Directive.insideMemory 64 (.long 61#32 1#32) = false ∧
    Directive.insideMemory 64 (.byte 63#32 1#8) = true ∧ Directive.insideMemory 64 (.byte 64#32 0#8) = false ∧
    Directive.insideMemory 64 (.text 62#32 [0x20, 0]) = true ∧
    Directive.insideMemory 64 (.text 63#32 [0x20, 0]) = false ∧
    (loadProgram 64 [.size 64#32, .text 62#32 [0x20, 0]] (.finite [])).toOption.isSome = true ∧
    (loadProgram 64 [.size 64#32, .text 62#32 [0x20, 0], .byte 64#32 0#8] (.finite [])).toOption.isNone = true := by decide

/-- A finite sequence at its last item and at its end, and an infinite one. -/
theorem witness_InputPortDeliversInput :
    (wit.offer (.finite [.byte 1#8])).nextItem = some (.byte 1#8) ∧
    (wit.advanceCursor.offer (.finite [.byte 1#8])).nextItem = none ∧
    (wit.advanceCursor.offer (.infinite fun k => .word (BitVec.ofNat 32 k))).nextItem = some (.word 1#32) := by decide

/-- A listing of the next two items of an infinite input, and a finite input that the state lists. -/
theorem witness_RunOnInputIsRunOnListing :
    (∀ k, k < wit.cursor + 2 → wit.cursor ≤ k → inputItem ⟨[.word 0#32, .word 1#32], false⟩ k =
      Input.item (.infinite fun k => .word (BitVec.ofNat 32 k)) k) ∧
    wit.input = ⟨[.byte 0x41#8, .word 7#32], false⟩ := by decide

theorem witness_EveryRunMeetsInvariant : Memory.wf [(63, 2#8)] = true ∧
    Memory.within (64 : MemSize).val [(63, 2#8)] = true := by decide

end Sys2Proof.Tests
end

section
/-! SUPPORT AND PROOF. What each memory access does in bounds and out of bounds (20_memory.md section 2), one rule per
access and case, and from these rules the statement about all four accesses. -/

namespace Sys2Proof.Machine

/-! ## Reads -/

theorem memRead8_of_inBounds {s : State} {a : Word} (h : s.inBounds a 1 = true) :
    memRead8 a s = some (s.byteAt a.toNat) := by
  rw [memRead8_eq, if_pos h]

theorem memRead8_of_outOfBounds {s : State} {a : Word} (h : s.inBounds a 1 = false) : memRead8 a s = none := by
  simp [memRead8_eq, h]

/-- The word the port loads is the one the statements spell out byte by byte (R44). -/
theorem load_word_eq_wordAt (s : State) (a : Nat) : s.mem.load a .word = s.wordAt a := rfl

theorem memRead32_of_inBounds {s : State} {a : Word} (h : s.inBounds a 4 = true) :
    memRead32 a s = some (s.wordAt a.toNat) := by
  rw [memRead32_eq, if_pos h, load_word_eq_wordAt]

theorem memRead32_of_outOfBounds {s : State} {a : Word} (h : s.inBounds a 4 = false) : memRead32 a s = none := by
  simp [memRead32_eq, h]

/-! ## Writes -/

theorem memWrite8_of_outOfBounds {s : State} {a : Word} (b : Byte) (h : s.inBounds a 1 = false) :
    memWrite8 a b s = s := by
  simp [memWrite8_eq, h]

theorem memWrite32_of_outOfBounds {s : State} {a : Word} (v : Word) (h : s.inBounds a 4 = false) :
    memWrite32 a v s = s := by
  simp [memWrite32_eq, h]

/-- A byte write changes no field but memory (R45, R47). -/
theorem memWrite8_eq_with_mem (a : Word) (b : Byte) (s : State) :
    memWrite8 a b s = { s with mem := (memWrite8 a b s).mem } := by
  rw [memWrite8_eq]

/-- A word write changes no field but memory (R46, R47). -/
theorem memWrite32_eq_with_mem (a v : Word) (s : State) :
    memWrite32 a v s = { s with mem := (memWrite32 a v s).mem } := by
  rw [memWrite32_eq]

/-- Every byte after a byte write in bounds (R45). -/
theorem byteAt_memWrite8 {s : State} {a : Word} (hwf : s.mem.wf = true) (h : s.inBounds a 1 = true) (b : Byte)
    (x : Nat) : (memWrite8 a b s).byteAt x = if x = a.toNat then b else s.byteAt x := by
  simp only [State.byteAt, memWrite8_eq, if_pos h, Memory.read_store_byte hwf, byteOfWord_setWidth]

/-- Every byte after a word write in bounds (R46). -/
theorem byteAt_memWrite32 {s : State} {a : Word} (hwf : s.mem.wf = true) (h : s.inBounds a 4 = true) (v : Word)
    (x : Nat) : (memWrite32 a v s).byteAt x =
      if a.toNat ≤ x ∧ x < a.toNat + 4 then byteOfWord v (x - a.toNat) else s.byteAt x := by
  simp only [State.byteAt, memWrite32_eq, if_pos h, Memory.read_store_word hwf]

/-- Byte `k` of the word written lies `k` bytes above the address (R46). -/
theorem byteAt_memWrite32_add {s : State} {a : Word} (hwf : s.mem.wf = true) (h : s.inBounds a 4 = true) (v : Word)
    {k : Nat} (hk : k < 4) : (memWrite32 a v s).byteAt (a.toNat + k) = v.extractLsb' (8 * k) 8 := by
  rw [byteAt_memWrite32 hwf h, if_pos (by omega), Nat.add_sub_cancel_left, byteOfWord]

theorem sameOutside_memWrite8 {s : State} {a : Word} (hwf : s.mem.wf = true) (h : s.inBounds a 1 = true) (b : Byte) :
    s.sameOutside (memWrite8 a b s) a 1 := by
  intro x hx
  rw [byteAt_memWrite8 hwf h, if_neg (by omega)]

theorem sameOutside_memWrite32 {s : State} {a : Word} (hwf : s.mem.wf = true) (h : s.inBounds a 4 = true) (v : Word) :
    s.sameOutside (memWrite32 a v s) a 4 := by
  intro x hx
  rw [byteAt_memWrite32 hwf h, if_neg hx]

/-! ## Raising on a failed read -/

/-- A read out of bounds raises INVALID_ADDRESS, and the raise changes `status` alone (D5). -/
theorem commitWith_of_eq_none {α : Type} {read : Option α} (h : read = none) (commit : α → State → State)
    (s : State) : commitWith read commit s = .next { s with status := .invalidAddress } := by
  subst h
  exact commitWith_none commit s

end Sys2Proof.Machine

namespace Sys2Proof
open Machine

/-- Settles O23: one rule of the accesses per clause. -/
theorem accessesAreLittleEndianAndBounded : Obligations.AccessesAreLittleEndianAndBounded := by
  intro s a v b hwf
  refine ⟨memRead8_of_inBounds, fun h => ⟨?writeByteOut, ?readByteOut⟩, memRead32_of_inBounds,
    fun h => ⟨?writeWordOut, ?readWordOut⟩, fun h => ⟨?byteWritten, ?byteFrame, ?byteFields⟩,
    fun h => ⟨?word0, ?word1, ?word2, ?word3, ?wordFrame, ?wordFields⟩⟩
  case writeByteOut => exact memWrite8_of_outOfBounds b h
  case readByteOut => exact fun commit => commitWith_of_eq_none (memRead8_of_outOfBounds h) commit s
  case writeWordOut => exact memWrite32_of_outOfBounds v h
  case readWordOut => exact fun commit => commitWith_of_eq_none (memRead32_of_outOfBounds h) commit s
  case byteWritten => rw [byteAt_memWrite8 hwf h, if_pos rfl]
  case byteFrame => exact sameOutside_memWrite8 hwf h b
  case byteFields => exact memWrite8_eq_with_mem a b s
  case word0 => exact byteAt_memWrite32_add hwf h v (k := 0) (by decide)
  case word1 => exact byteAt_memWrite32_add hwf h v (k := 1) (by decide)
  case word2 => exact byteAt_memWrite32_add hwf h v (k := 2) (by decide)
  case word3 => exact byteAt_memWrite32_add hwf h v (k := 3) (by decide)
  case wordFrame => exact sameOutside_memWrite32 hwf h v
  case wordFields => exact memWrite32_eq_with_mem a v s

end Sys2Proof
end

section
/-! SUPPORT AND PROOF. A run is over exactly in a terminal status (40_fsm.md R102): no meaning of an instruction stops
the machine, so a running state always has a next state, and a state whose run is over is the state after any number
of steps. -/

namespace Sys2Proof.Machine

/-! ## Every answer of a running state is a next state -/

/-- Check, then commit: both outcomes of the check are next states (R10). -/
theorem exists_commitIf_eq_next (ok : Bool) (commit : State → State) (s : State) :
    ∃ t, commitIf ok commit s = .next t := by
  cases ok with
  | true => exact ⟨_, commitIf_true commit s⟩
  | false => exact ⟨_, commitIf_false commit s⟩

/-- Read, then commit: a read out of bounds is a raise, which is a next state too (R10). -/
theorem exists_commitWith_eq_next {α : Type} (read : Option α) (commit : α → State → State) (s : State) :
    ∃ t, commitWith read commit s = .next t := by
  cases read with
  | some v => exact ⟨_, commitWith_some v commit s⟩
  | none => exact ⟨_, commitWith_none commit s⟩

/-- A jump is a check, then a commit (R155). -/
theorem exists_jumpIf_eq_next (taken : Bool) (dest : Word) (s : State) : ∃ t, jumpIf taken dest s = .next t :=
  exists_commitIf_eq_next _ _ s

/-- No instruction stops the machine: each one commits unchecked, or behind a check of its addresses, or behind a
checked read (R10, R108). -/
theorem exists_exec_eq_next (i : Instr) (s : State) : ∃ t, exec i s = .next t := by
  cases i with
  | nop | halt | rrmovl | irmovl | addl | subl | andl | xorl | mull | cmpl => exact ⟨_, rfl⟩
  | jmp | jle | jl | je | jne | jge | jg => exact exists_jumpIf_eq_next _ _ s
  | rmmovl | call | pushl | readb | readl =>
    simp only [exec, execRmmovl, execCall, execPushl, execReadb, execReadl]
    exact exists_commitIf_eq_next _ _ s
  | mrmovl | movsbl | ret | popl | writeb | writel =>
    simp only [exec, execMrmovl, execMovsbl, execRet, execPopl, execWriteb, execWritel]
    exact exists_commitWith_eq_next _ _ s

/-- A running state has a next state: the one its exception leaves, or the one its instruction leaves (R110). -/
theorem exists_step_eq_next_of_running {s : State} (h : s.status = .running) : ∃ t, step s = .next t := by
  rw [step_running h]
  cases fetchInstr s with
  | error c => exact ⟨_, takeException_eq c s⟩
  | ok i => exact exists_exec_eq_next i s

theorem exists_step_eq_next_iff {s : State} : (∃ t, step s = .next t) ↔ s.status = .running :=
  ⟨fun ⟨_, h⟩ => (step_next h).1, exists_step_eq_next_of_running⟩

/-! ## Runs from a terminal status -/

/-- A run takes no step from a terminal status, however many it may take (R102, R113). -/
theorem State.after_of_terminal {s : State} (h : s.status ≠ .running) (n : Nat) : s.after n = s := by
  cases n with
  | zero => rfl
  | succ n => simp only [State.after, step_terminal h]

end Sys2Proof.Machine

namespace Sys2Proof
open Machine

/-- Settles O12: a step stops the machine in a terminal status alone, and reset sets RUNNING. -/
theorem runOverExactlyWhenNotRunning : Obligations.RunOverExactlyWhenNotRunning :=
  ⟨fun _ => exists_step_eq_next_iff, fun _ n h => State.after_of_terminal h n, fun _ => rfl⟩

end Sys2Proof
end

section
/-! SUPPORT AND PROOF. `halt` ends the run (41_nop_halt.md R121): its encoding is the opcode byte alone, and the state
it leaves is terminal, so R102 allows no step from it. -/

namespace Sys2Proof

/-- `halt` has no operand bytes (R121). -/
theorem encode_halt : encode .halt = [0x10#8] := rfl

namespace Machine

/-- The state `halt` leaves is HALTED, and the run is over there (R102, R121). -/
theorem step_eq_runOver_of_exec_halt {s t : State} (h : exec .halt s = .next t) : step t = .fault .runOver := by
  rw [exec_halt] at h
  cases h
  exact step_terminal (by simp)

end Machine

open Machine

/-- Settles O29: what `halt` commits is `exec_halt`, and the status it commits is terminal. -/
theorem haltEndsRun : Obligations.HaltEndsRun :=
  ⟨encode_halt, fun s => ⟨_, exec_halt s, rfl, step_eq_runOver_of_exec_halt (exec_halt s)⟩⟩

end Sys2Proof
end

section
/-! SUPPORT AND PROOF. `rrmovl` copies a register (42_moves.md R125): its encoding is the opcode byte and the register
byte, and what a later read of a register returns is the law of the register file. -/

namespace Sys2Proof

/-- `rrmovl` has a register byte and no immediate (R125). -/
theorem encode_rrmovl (a b : Reg) : encode (.rrmovl a b) = [0x20#8, registerByte a.code b.code] := rfl

open Machine

/-- Settles O30: what `rrmovl` commits is `exec_rrmovl`, and its one register write is read back by
`RegFile.read_write`. -/
theorem rrmovlCopiesRegister : Obligations.RrmovlCopiesRegister :=
  fun a b s => ⟨encode_rrmovl a b, _, exec_rrmovl a b s, fun r => RegFile.read_write s.regs b r (s.reg a), rfl⟩

end Sys2Proof
end

section
/-! SUPPORT AND PROOF. The ALU instructions (43_alu.md): the results as wrapped integers, when a wrapped integer is the
integer itself, and one rule for what the five instructions that write `x[rB]` commit. -/

namespace Sys2Proof

/-! ## Encodings -/

/-- Opcode byte and register byte (R139). -/
theorem encode_andl (a b : Reg) : encode (.andl a b) = [0x62#8, registerByte a.code b.code] := rfl

/-- Opcode byte and register byte (R140). -/
theorem encode_xorl (a b : Reg) : encode (.xorl a b) = [0x63#8, registerByte a.code b.code] := rfl

/-- Opcode byte and register byte (R141). -/
theorem encode_mull (a b : Reg) : encode (.mull a b) = [0x64#8, registerByte a.code b.code] := rfl

namespace Machine

/-! ## Results as wrapped integers (R143) -/

theorem aluResult_add (x y : Word) : aluResult .add x y = BitVec.ofInt 32 (x.toInt + y.toInt) := by
  rw [BitVec.ofInt_add, BitVec.ofInt_toInt, BitVec.ofInt_toInt, aluResult]

theorem aluResult_sub (x y : Word) : aluResult .sub x y = BitVec.ofInt 32 (x.toInt - y.toInt) := by
  rw [Int.sub_eq_add_neg, BitVec.ofInt_add, BitVec.ofInt_neg, BitVec.ofInt_toInt, BitVec.ofInt_toInt,
    ← BitVec.sub_eq_add_neg, aluResult]

theorem aluResult_mul (x y : Word) : aluResult .mul x y = BitVec.ofInt 32 (x.toInt * y.toInt) := rfl

/-- Wrapping to a word changes exactly the integers outside the signed 32-bit range: the signed value of a word lies in
that range, and an integer in it is the signed value of its wrap. -/
theorem ne_toInt_ofInt_iff (p : Int) : p ≠ (BitVec.ofInt 32 p).toInt ↔ p < -2 ^ 31 ∨ 2 ^ 31 ≤ p := by
  constructor
  · intro hne
    by_contra hin
    exact hne (BitVec.toInt_ofInt_eq_self (by decide) (by omega) (by omega)).symm
  · intro hout heq
    have hlo : -2 ^ 31 ≤ (BitVec.ofInt 32 p).toInt := BitVec.le_toInt _
    have hhi : (BitVec.ofInt 32 p).toInt < 2 ^ 31 := BitVec.toInt_lt
    omega

/-! ## Flags -/

/-- ZF and SF are those of the wrapped result, whatever the operation (R136). -/
theorem alu_zf_sf {f : AluOp} {x y r : Word} (hr : aluResult f x y = r) :
    (alu f x y).zf = decide (r = 0#32) ∧ (alu f x y).sf = decide (r.toInt < 0) := by
  subst hr
  exact ⟨rfl, rfl⟩

/-- OF of `mull` compares the exact product with the signed value of the result (R141). -/
theorem aluOverflow_mul_iff {x y r : Word} : aluOverflow .mul x y r = true ↔ x.toInt * y.toInt ≠ r.toInt :=
  decide_eq_true_iff

/-! ## What the five instructions that write `x[rB]` commit -/

/-- An instruction that commits operation `f` with result `r`: its one register write, its flags and its frame (R137
to R141). -/
theorem exists_next_of_commitAlu {i : Instr} {f : AluOp} {a b : Reg} {s : State} {r : Word}
    (hi : exec i s = .next (commitAlu f a b s)) (hr : aluResult f (s.reg b) (s.reg a) = r) :
    ∃ t, exec i s = .next t ∧ (∀ q, t.reg q = if q = b then r else s.reg q) ∧
      t.zf = decide (r = 0#32) ∧ t.sf = decide (r.toInt < 0) ∧ t.of = aluOverflow f (s.reg b) (s.reg a) r ∧
      t = { s with regs := t.regs, zf := t.zf, sf := t.sf, of := t.of, pc := s.pc + 2#32 } := by
  obtain ⟨hzf, hsf⟩ := alu_zf_sf hr
  subst hr
  exact ⟨_, hi, fun q => RegFile.read_write s.regs b q _, hzf, hsf, rfl, commitAlu_eq f a b s⟩

end Machine

open Machine

/-- Settles O34: the five instructions that write their result share one commit, and `cmpl` sets the flags of the
difference. -/
theorem zeroAndSignFlagsOfWrappedResult : Obligations.ZeroAndSignFlagsOfWrappedResult := by
  intro a b s i r x y hmem
  have writes {f : AluOp} (hi : exec i s = .next (commitAlu f a b s)) (hr : aluResult f (s.reg b) (s.reg a) = r) :
      ∃ t, exec i s = .next t ∧ t.zf = decide (r = 0#32) ∧ t.sf = r.msb ∧ t.sf = decide (r.toInt < 0) ∧
        (i ≠ .cmpl a b → t.reg b = r) := by
    obtain ⟨t, ht, hreg, hzf, hsf, -, -⟩ := exists_next_of_commitAlu hi hr
    exact ⟨t, ht, hzf, hsf.trans BitVec.msb_eq_toInt.symm, hsf, fun _ => (hreg b).trans (if_pos rfl)⟩
  simp only [List.mem_cons, Prod.mk.injEq, List.not_mem_nil, or_false] at hmem
  obtain ⟨rfl, rfl⟩ | ⟨rfl, rfl⟩ | ⟨rfl, rfl⟩ | ⟨rfl, rfl⟩ | ⟨rfl, rfl⟩ | ⟨rfl, rfl⟩ := hmem
  · exact writes (exec_addl a b s) (aluResult_add _ _)
  · exact writes (exec_subl a b s) (aluResult_sub _ _)
  · exact writes (exec_andl a b s) rfl
  · exact writes (exec_xorl a b s) rfl
  · exact writes (exec_mull a b s) (aluResult_mul _ _)
  · obtain ⟨hzf, hsf⟩ := alu_zf_sf (aluResult_sub (s.reg b) (s.reg a))
    exact ⟨_, exec_cmpl a b s, hzf, hsf.trans BitVec.msb_eq_toInt.symm, hsf, fun hne => absurd rfl hne⟩

/-- Settles O37: both commit the bit-wise result, and OF of both operations is `false`. -/
theorem andlXorlResult : Obligations.AndlXorlResult := by
  intro a b s i op r hmem
  simp only [List.mem_cons, Prod.mk.injEq, List.not_mem_nil, or_false] at hmem
  obtain ⟨rfl, rfl, rfl⟩ | ⟨rfl, rfl, rfl⟩ := hmem
  · exact ⟨encode_andl a b, exists_next_of_commitAlu (exec_andl a b s) rfl⟩
  · exact ⟨encode_xorl a b, exists_next_of_commitAlu (exec_xorl a b s) rfl⟩

/-- Settles O38: OF says that wrapping changed the product, which is that the product is out of the signed range. -/
theorem mullResultAndOverflow : Obligations.MullResultAndOverflow := by
  intro a b s p r
  obtain ⟨t, ht, hreg, hzf, hsf, hof, hframe⟩ :=
    exists_next_of_commitAlu (exec_mull a b s) (aluResult_mul (s.reg b) (s.reg a))
  have hne : t.of = true ↔ p ≠ r.toInt := by rw [hof, aluOverflow_mul_iff]
  exact ⟨encode_mull a b, t, ht, hreg, hzf, hsf, hne, hne.trans (ne_toInt_ofInt_iff p), hframe⟩

end Sys2Proof
end

section
/-! SUPPORT AND PROOF. The seven jumps (44_jumps.md): one layout for their encodings, their conditions as equalities of
SF and OF, and one rule for where a jump whose target is in bounds goes. -/

namespace Sys2Proof

/-- An instruction of the jumps' format is its opcode byte and its target, little-endian (R71, R76). -/
theorem encode_of_format_j {i : Instr} {op : Byte} {dest : Word} (hformat : i.format = .j)
    (hraw : i.toRaw = ⟨op, 0xF, 0xF, dest⟩) : encode i = op :: bytesOfWord dest := by
  rw [encode, hformat, hraw, Raw.bytes]

namespace Machine

/-! ## Conditions as equalities of SF and OF -/

/-- `jle` (R157). -/
theorem condLe_eq (zf sf of : Bool) : condLe zf sf of = ((sf != of) || zf) := rfl

/-- `jl` (R158). -/
theorem condL_eq (sf of : Bool) : condL sf of = (sf != of) := rfl

/-- `jge` is `jl` negated, so it holds when SF and OF are equal (R161). -/
theorem condGe_eq (sf of : Bool) : condGe sf of = (sf == of) := Bool.not_not _

/-- `jg` is `jge` with ZF excluded (R162). -/
theorem condG_eq (zf sf of : Bool) : condG zf sf of = ((sf == of) && !zf) :=
  congrArg (· && !zf) (condGe_eq sf of)

/-! ## Where a jump goes -/

/-- With its target in bounds a jump completes, taken or not, and writes `pc` alone (R155). -/
theorem jumpIf_of_inBounds {dest : Word} {s : State} (h : s.inBounds dest 1 = true) (taken : Bool) :
    jumpIf taken dest s = .next { s with pc := if taken then dest else s.pc + 5#32 } := by
  rw [jumpIf_eq, if_pos h]
  cases taken with
  | true => rfl
  | false => rfl

end Machine

open Machine

/-- Settles O42: every jump has format J and is `jumpIf` of its condition, and `jumpIf_of_inBounds` says where that
goes. -/
theorem jumpsFollowTheirConditions : Obligations.JumpsFollowTheirConditions := by
  intro dest s i op taken hmem
  have jumps (hformat : i.format = .j) (hraw : i.toRaw = ⟨op, 0xF, 0xF, dest⟩)
      (hexec : exec i s = jumpIf taken dest s) :
      encode i = op :: bytesOfWord dest ∧
        (s.inBounds dest 1 = true → exec i s = .next { s with pc := if taken then dest else s.pc + 5#32 }) :=
    ⟨encode_of_format_j hformat hraw, fun h => hexec.trans (jumpIf_of_inBounds h taken)⟩
  simp only [List.mem_cons, Prod.mk.injEq, List.not_mem_nil, or_false] at hmem
  obtain ⟨rfl, rfl, rfl⟩ | ⟨rfl, rfl, rfl⟩ | ⟨rfl, rfl, rfl⟩ | ⟨rfl, rfl, rfl⟩ | ⟨rfl, rfl, rfl⟩ | ⟨rfl, rfl, rfl⟩ |
    ⟨rfl, rfl, rfl⟩ := hmem
  · exact jumps rfl rfl (exec_jmp dest s)
  · exact jumps rfl rfl (by rw [exec_jle, condLe_eq])
  · exact jumps rfl rfl (by rw [exec_jl, condL_eq])
  · exact jumps rfl rfl (by rw [exec_je, condE])
  · exact jumps rfl rfl (by rw [exec_jne, condNe])
  · exact jumps rfl rfl (by rw [exec_jge, condGe_eq])
  · exact jumps rfl rfl (by rw [exec_jg, condG_eq])

end Sys2Proof
end

section
/-! SUPPORT AND PROOF. The decoder against the tables of 30_encoding.md: the fields it accepts and refuses, what it does
with a register field an opcode does not use, how many bytes it takes, and the round trip with the encoder. -/

namespace Sys2Proof

/-! ## What the tables say about an opcode byte -/

/-- The decoder has no format for an opcode byte outside the table (R79). -/
theorem opcodeFormat_eq_none_of_unknown {op : Byte} (h : Raw.knownOpcode op = false) : opcodeFormat op = none := by
  rw [← opcodeFormat_isSome] at h
  exact Option.not_isSome_iff_eq_none.1 (by simp [h])

/-- A known opcode byte has a format (R71, R77). -/
theorem exists_opcodeFormat_of_known {op : Byte} (h : Raw.knownOpcode op = true) : ∃ f, opcodeFormat op = some f := by
  rw [← opcodeFormat_isSome] at h
  exact Option.isSome_iff_exists.1 h

/-- Only opcodes with a register byte use the field rA (R110). -/
theorem Raw.hasRegisterByte_of_usesA {op : Byte} (h : Raw.usesA op = true) : Raw.hasRegisterByte op = true := by
  rw [Raw.usesA, Bool.and_eq_true] at h
  exact h.1

/-- Only opcodes with a register byte use the field rB (R110). -/
theorem Raw.hasRegisterByte_of_usesB {op : Byte} (h : Raw.usesB op = true) : Raw.hasRegisterByte op = true := by
  revert op; decide

/-- A register byte lies within the length the table gives its opcode (R71, R78). -/
theorem Raw.two_le_length_of_hasRegisterByte {op : Byte} (h : Raw.hasRegisterByte op = true) : 2 ≤ Raw.length op := by
  rw [Raw.hasRegisterByte, Bool.and_eq_true, Bool.or_eq_true, beq_iff_eq, beq_iff_eq] at h
  omega

/-- The range check looks at the used register fields alone (R75, R107). -/
theorem Raw.fieldsInRange_congr {r r' : Raw} (hop : r.opcode = r'.opcode)
    (hA : Raw.usesA r.opcode = true → r.rA = r'.rA) (hB : Raw.usesB r.opcode = true → r.rB = r'.rB) :
    r.fieldsInRange = r'.fieldsInRange := by
  unfold Raw.fieldsInRange
  rw [← hop]
  cases uA : Raw.usesA r.opcode <;> cases uB : Raw.usesB r.opcode <;> simp [uA, uB, hA, hB]

/-! ## The opcode map and the register check -/

/-- The four forms of a row of the opcode map, by the register fields it uses (R74, R77, R107): with opcode `op` and
4-byte field `v` the map answers one instruction whatever the register fields hold, or checks rA, rB or both. -/
inductive Raw.RowForm (op : Byte) (v : Word) : Prop where
  | fixed (i : Instr) (hA : Raw.usesA op = false) (hB : Raw.usesB op = false)
      (h : ∀ rA rB, Raw.toInstr ⟨op, rA, rB, v⟩ = .ok i)
  | overA (mk : Reg → Instr) (hA : Raw.usesA op = true) (hB : Raw.usesB op = false)
      (h : ∀ rA rB, Raw.toInstr ⟨op, rA, rB, v⟩ = Raw.withA ⟨op, rA, rB, v⟩ mk)
  | overB (mk : Reg → Instr) (hA : Raw.usesA op = false) (hB : Raw.usesB op = true)
      (h : ∀ rA rB, Raw.toInstr ⟨op, rA, rB, v⟩ = Raw.withB ⟨op, rA, rB, v⟩ mk)
  | overAB (mk : Reg → Reg → Instr) (hA : Raw.usesA op = true) (hB : Raw.usesB op = true)
      (h : ∀ rA rB, Raw.toInstr ⟨op, rA, rB, v⟩ = Raw.withAB ⟨op, rA, rB, v⟩ mk)

/-- Every known opcode has a row of one of the four forms, in the order of `Raw.opcodes`. -/
theorem Raw.rowForm_of_known {op : Byte} (h : Raw.knownOpcode op = true) (v : Word) : Raw.RowForm op v := by
  simp only [Raw.knownOpcode, Raw.opcodes, List.cons_append, List.nil_append, List.contains_iff_mem, List.mem_cons,
    List.not_mem_nil, or_false] at h
  rcases h with rfl | rfl | rfl | rfl | rfl | rfl | rfl | rfl | rfl | rfl | rfl | rfl | rfl | rfl | rfl | rfl | rfl |
    rfl | rfl | rfl | rfl | rfl | rfl | rfl | rfl | rfl | rfl | rfl
  iterate 2 exact .fixed _ rfl rfl fun _ _ => rfl
  · exact .overAB _ rfl rfl fun _ _ => rfl
  · exact .overB (.irmovl · v) rfl rfl fun _ _ => rfl
  · exact .overAB (.rmmovl · · v) rfl rfl fun _ _ => rfl
  · exact .overAB (.mrmovl · · v) rfl rfl fun _ _ => rfl
  iterate 6 exact .overAB _ rfl rfl fun _ _ => rfl
  · exact .fixed (.jmp v) rfl rfl fun _ _ => rfl
  · exact .fixed (.jle v) rfl rfl fun _ _ => rfl
  · exact .fixed (.jl v) rfl rfl fun _ _ => rfl
  · exact .fixed (.je v) rfl rfl fun _ _ => rfl
  · exact .fixed (.jne v) rfl rfl fun _ _ => rfl
  · exact .fixed (.jge v) rfl rfl fun _ _ => rfl
  · exact .fixed (.jg v) rfl rfl fun _ _ => rfl
  · exact .fixed (.call v) rfl rfl fun _ _ => rfl
  · exact .fixed .ret rfl rfl fun _ _ => rfl
  iterate 2 exact .overA _ rfl rfl fun _ _ => rfl
  · exact .overA (.readb · v) rfl rfl fun _ _ => rfl
  · exact .overA (.readl · v) rfl rfl fun _ _ => rfl
  · exact .overA (.writeb · v) rfl rfl fun _ _ => rfl
  · exact .overA (.writel · v) rfl rfl fun _ _ => rfl
  · exact .overAB (.movsbl · · v) rfl rfl fun _ _ => rfl

theorem Raw.withA_of_le {r : Raw} (h : r.rA.toNat ≤ 7) (mk : Reg → Instr) : ∃ i, r.withA mk = .ok i := by
  cases hA : Reg.ofField r.rA with
  | none => exact absurd (Reg.ofField_eq_none.1 hA) (by omega)
  | some a => exact ⟨mk a, Raw.withA_eq_ok.2 ⟨a, Reg.ofField_eq_some.1 hA, rfl⟩⟩

theorem Raw.withA_of_gt {r : Raw} (h : 7 < r.rA.toNat) (mk : Reg → Instr) : r.withA mk = .error .badRegister := by
  rw [Raw.withA, Reg.ofField_eq_none.2 h]

theorem Raw.withB_of_le {r : Raw} (h : r.rB.toNat ≤ 7) (mk : Reg → Instr) : ∃ i, r.withB mk = .ok i := by
  cases hB : Reg.ofField r.rB with
  | none => exact absurd (Reg.ofField_eq_none.1 hB) (by omega)
  | some b => exact ⟨mk b, Raw.withB_eq_ok.2 ⟨b, Reg.ofField_eq_some.1 hB, rfl⟩⟩

theorem Raw.withB_of_gt {r : Raw} (h : 7 < r.rB.toNat) (mk : Reg → Instr) : r.withB mk = .error .badRegister := by
  rw [Raw.withB, Reg.ofField_eq_none.2 h]

/-- Checking both fields is checking rA, then rB. -/
theorem Raw.withAB_eq (r : Raw) (mk : Reg → Reg → Instr) :
    r.withAB mk = match Reg.ofField r.rA with
      | some a => r.withB (mk a)
      | none => .error .badRegister := by
  unfold Raw.withAB Raw.withB
  cases Reg.ofField r.rA <;> cases Reg.ofField r.rB <;> rfl

/-- Fields of a known opcode in range are an instruction (R75, R107). -/
theorem Raw.exists_toInstr_eq_ok {r : Raw} (hk : Raw.knownOpcode r.opcode = true) (h : r.fieldsInRange = true) :
    ∃ i, r.toInstr = .ok i := by
  obtain ⟨op, rA, rB, v⟩ := r
  cases Raw.rowForm_of_known hk v with
  | fixed i hA hB hrow => exact ⟨i, hrow rA rB⟩
  | overA mk hA hB hrow =>
    rw [hrow]
    exact Raw.withA_of_le (by simpa [Raw.fieldsInRange, hA, hB] using h) mk
  | overB mk hA hB hrow =>
    rw [hrow]
    exact Raw.withB_of_le (by simpa [Raw.fieldsInRange, hA, hB] using h) mk
  | overAB mk hA hB hrow =>
    have hle : rA.toNat ≤ 7 ∧ rB.toNat ≤ 7 := by simpa [Raw.fieldsInRange, hA, hB] using h
    rw [hrow, Raw.withAB_eq]
    cases ha : Reg.ofField rA with
    | none => exact absurd (Reg.ofField_eq_none.1 ha) (by omega)
    | some a => exact Raw.withB_of_le hle.2 (mk a)

/-- A used field of a known opcode above 7 is refused as a register (R75, R107). -/
theorem Raw.toInstr_eq_badRegister {r : Raw} (hk : Raw.knownOpcode r.opcode = true) (h : r.fieldsInRange = false) :
    r.toInstr = .error .badRegister := by
  obtain ⟨op, rA, rB, v⟩ := r
  cases Raw.rowForm_of_known hk v with
  | fixed i hA hB hrow => simp [Raw.fieldsInRange, hA, hB] at h
  | overA mk hA hB hrow =>
    rw [hrow]
    exact Raw.withA_of_gt (by simpa [Raw.fieldsInRange, hA, hB] using h) mk
  | overB mk hA hB hrow =>
    rw [hrow]
    exact Raw.withB_of_gt (by simpa [Raw.fieldsInRange, hA, hB] using h) mk
  | overAB mk hA hB hrow =>
    have hgt : rA.toNat ≤ 7 → 7 < rB.toNat := by simpa [Raw.fieldsInRange, hA, hB] using h
    rw [hrow, Raw.withAB_eq]
    cases ha : Reg.ofField rA with
    | none => rfl
    | some a =>
      have hle : rA.toNat ≤ 7 := Reg.ofField_eq_some.1 ha ▸ Reg.code_le a
      exact Raw.withB_of_gt (hgt hle) (mk a)

/-- The opcode map looks at the used register fields alone (R74, R107). -/
theorem Raw.toInstr_congr {op : Byte} {rA rA' rB rB' : BitVec 4} {v : Word} (hk : Raw.knownOpcode op = true)
    (hA : Raw.usesA op = true → rA = rA') (hB : Raw.usesB op = true → rB = rB') :
    Raw.toInstr ⟨op, rA, rB, v⟩ = Raw.toInstr ⟨op, rA', rB', v⟩ := by
  cases Raw.rowForm_of_known hk v with
  | fixed i _ _ hrow => rw [hrow, hrow]
  | overA mk uA _ hrow => rw [hrow, hrow, hA uA, Raw.withA, Raw.withA]
  | overB mk _ uB hrow => rw [hrow, hrow, hB uB, Raw.withB, Raw.withB]
  | overAB mk uA uB hrow => rw [hrow, hrow, hA uA, hB uB]

/-! ## Decoding, piece by piece -/

theorem decode_of_unknown {op : Byte} (h : Raw.knownOpcode op = false) (tail : List Byte) :
    decode (op :: tail) = .error .unknownOpcode := by
  simp only [decode, opcodeFormat_eq_none_of_unknown h]

/-- Too few bytes for the opcode's length are refused (R105). -/
theorem decode_of_truncated {op : Byte} {tail : List Byte} (hk : Raw.knownOpcode op = true)
    (h : (op :: tail).length < Raw.length op) : decode (op :: tail) = .error .truncated := by
  obtain ⟨f, hf⟩ := exists_opcodeFormat_of_known hk
  have hs : splitFields op f tail = none := by
    rw [← Option.not_isSome_iff_eq_none, splitFields_isSome, ← (opcodeFormat_length hf).1]
    simpa using h
  simp only [decode, hf, hs]

/-- With enough bytes the cut succeeds: it leaves the bytes behind the instruction, and its register fields are the
nibbles of the second byte where the opcode uses them (R73, R78, R106). -/
theorem exists_splitFields {op : Byte} {tail : List Byte} (hk : Raw.knownOpcode op = true)
    (h : Raw.length op ≤ (op :: tail).length) :
    ∃ f raw, opcodeFormat op = some f ∧ splitFields op f tail = some (raw, (op :: tail).drop (Raw.length op)) ∧
      raw.opcode = op ∧ raw.fieldsInRange =
        Raw.fieldsInRange ⟨op, highNibble ((op :: tail).getD 1 0), lowNibble ((op :: tail).getD 1 0), 0⟩ := by
  obtain ⟨f, hf⟩ := exists_opcodeFormat_of_known hk
  obtain ⟨hl, hreg⟩ := opcodeFormat_length hf
  obtain ⟨⟨raw, rest⟩, hs⟩ := Option.isSome_iff_exists.1 (splitFields_isSome.2 (hl ▸ h : f.length ≤ tail.length + 1))
  obtain ⟨hop, hbytes, hnibbles⟩ := splitFields_eq_some hs
  have hrest : (op :: tail).drop (Raw.length op) = rest := by
    rw [← hbytes, List.drop_left' (by rw [length_rawBytes, hl])]
  refine ⟨f, raw, hf, hrest ▸ hs, hop, Raw.fieldsInRange_congr hop (fun hA => ?_) fun hB => ?_⟩
  · exact (hnibbles (hreg.1 (Raw.hasRegisterByte_of_usesA (hop ▸ hA)))).1
  · exact (hnibbles (hreg.1 (Raw.hasRegisterByte_of_usesB (hop ▸ hB)))).2

theorem decode_of_badRegister {op : Byte} {tail : List Byte} (hk : Raw.knownOpcode op = true)
    (hl : Raw.length op ≤ (op :: tail).length)
    (hr : Raw.fieldsInRange ⟨op, highNibble ((op :: tail).getD 1 0), lowNibble ((op :: tail).getD 1 0), 0⟩ = false) :
    decode (op :: tail) = .error .badRegister := by
  obtain ⟨f, raw, hf, hs, hop, hrange⟩ := exists_splitFields hk hl
  simp only [decode, hf, hs, Raw.toInstr_eq_badRegister (hop ▸ hk) (hrange.trans hr)]

/-- The instruction a cut is decoded to has the format of the opcode byte (R71, R77). -/
theorem Raw.format_eq_of_toInstr {r : Raw} {f : Format} {i : Instr} (hf : opcodeFormat r.opcode = some f)
    (h : r.toInstr = .ok i) : i.format = f := by
  rw [(Raw.agreesWith_of_toInstr h).1, opcodeFormat_toRaw] at hf
  exact Option.some.inj hf

theorem exists_decode_eq_ok {op : Byte} {tail : List Byte} (hk : Raw.knownOpcode op = true)
    (hl : Raw.length op ≤ (op :: tail).length)
    (hr : Raw.fieldsInRange ⟨op, highNibble ((op :: tail).getD 1 0), lowNibble ((op :: tail).getD 1 0), 0⟩ = true) :
    ∃ i, decode (op :: tail) = .ok (i, (op :: tail).drop (Raw.length op)) ∧ i.length = Raw.length op := by
  obtain ⟨f, raw, hf, hs, hop, hrange⟩ := exists_splitFields hk hl
  obtain ⟨i, hi⟩ := Raw.exists_toInstr_eq_ok (hop ▸ hk) (hrange.trans hr)
  refine ⟨i, by simp only [decode, hf, hs, hi], ?_⟩
  rw [Instr.length, Raw.format_eq_of_toInstr (hop ▸ hf) hi, (opcodeFormat_length hf).1]

/-- What a decoded instruction says of the bytes: the opcode byte gives its length, and the rest is what lies behind
that many bytes (R78, R105). -/
theorem length_of_decode {op : Byte} {tail rest : List Byte} {i : Instr} (h : decode (op :: tail) = .ok (i, rest)) :
    encodedLength op = some i.length ∧ i.length + rest.length = (op :: tail).length := by
  obtain ⟨_, _, f, raw, hcons, hf, hs, hi⟩ := decode_eq_ok h
  cases hcons
  obtain ⟨hop, hbytes, -⟩ := splitFields_eq_some hs
  have hl : i.length = f.length := congrArg _ (Raw.format_eq_of_toInstr (hop ▸ hf) hi)
  refine ⟨by rw [encodedLength, hf, hl, Option.map_some], ?_⟩
  rw [← hbytes, List.length_append, length_rawBytes, hl]

theorem encodedLength_of_known {op : Byte} (h : Raw.knownOpcode op = true) :
    encodedLength op = some (Raw.length op) := by
  obtain ⟨f, hf⟩ := exists_opcodeFormat_of_known h
  rw [encodedLength, hf, (opcodeFormat_length hf).1, Option.map_some]

theorem encodedLength_of_unknown {op : Byte} (h : Raw.knownOpcode op = false) : encodedLength op = none := by
  rw [encodedLength, opcodeFormat_eq_none_of_unknown h, Option.map_none]

/-- Settles O8: one lemma per clause, in the order of the refusals. -/
theorem decoderAcceptsLegalOnly : Obligations.DecoderAcceptsLegalOnly :=
  fun _ tail => ⟨fun h => decode_of_unknown h tail, decode_of_truncated, decode_of_badRegister, exists_decode_eq_ok⟩

/-! ## Unused register fields -/

/-- Replacing the register byte replaces the two register fields and nothing else of the cut (R71, R73). -/
theorem splitFields_registerByte {f : Format} (hf : f = .r ∨ f = .m) (op rb rb' : Byte) (tail : List Byte) :
    splitFields op f (rb' :: tail) = (splitFields op f (rb :: tail)).map fun p =>
      ({ p.1 with rA := highNibble rb', rB := lowNibble rb' }, p.2) := by
  obtain rfl | rfl := hf
  · rfl
  · obtain _ | ⟨_, _ | ⟨_, _ | ⟨_, _ | ⟨_, _⟩⟩⟩⟩ := tail <;> rfl

/-- Two register bytes that agree on the used fields decode alike (R74, R107). -/
theorem decode_registerByte_congr {op rb rb' : Byte} {tail : List Byte} (h : Raw.hasRegisterByte op = true)
    (hA : Raw.usesA op = true → highNibble rb' = highNibble rb)
    (hB : Raw.usesB op = true → lowNibble rb' = lowNibble rb) :
    decode (op :: rb' :: tail) = decode (op :: rb :: tail) := by
  have hk : Raw.knownOpcode op = true := by
    rw [Raw.hasRegisterByte, Bool.and_eq_true] at h
    exact h.1
  obtain ⟨f, hf⟩ := exists_opcodeFormat_of_known hk
  have hrm : f = .r ∨ f = .m := (opcodeFormat_length hf).2.1 h
  simp only [decode, hf, splitFields_registerByte hrm op rb rb' tail]
  cases hs : splitFields op f (rb :: tail) with
  | none => rfl
  | some p =>
    obtain ⟨⟨op', rA, rB, v⟩, rest⟩ := p
    obtain ⟨rfl, -, hnibbles⟩ := splitFields_eq_some hs
    obtain ⟨rfl, rfl⟩ := hnibbles hrm
    simp only [Option.map_some, List.getD_cons_zero, Raw.toInstr_congr hk hA hB]

/-! ## What the encoder writes -/

/-- The encoder's first byte is the opcode byte. -/
theorem encode_getD_zero (i : Instr) : (encode i).getD 0 0 = i.toRaw.opcode := by
  obtain ⟨bs, h⟩ := encode_eq_cons i
  rw [h, List.getD_cons_zero]

/-- Where the opcode has a register byte, it is the encoder's second byte (R71). -/
theorem encode_getD_one {i : Instr} (h : Raw.hasRegisterByte i.toRaw.opcode = true) :
    (encode i).getD 1 0 = registerByte i.toRaw.rA i.toRaw.rB := by
  obtain hf | hf := (opcodeFormat_length (opcodeFormat_toRaw i)).2.1 h <;> rw [encode, hf, Raw.bytes] <;> rfl

/-- The encoder writes `F` in a field rA it does not use (R74). -/
theorem rA_toRaw_of_unused {i : Instr} (h : Raw.usesA i.toRaw.opcode = false) : i.toRaw.rA = 0xF#4 := by
  obtain ⟨-, hc, -⟩ := Laws.CanonicalEncoding.statement i
  simp only [Raw.canonical, h, Bool.false_or, Bool.and_eq_true, beq_iff_eq] at hc
  exact hc.1

/-- The encoder writes `F` in a field rB it does not use (R74). -/
theorem rB_toRaw_of_unused {i : Instr} (h : Raw.usesB i.toRaw.opcode = false) : i.toRaw.rB = 0xF#4 := by
  obtain ⟨-, hc, -⟩ := Laws.CanonicalEncoding.statement i
  simp only [Raw.canonical, h, Bool.false_or, Bool.and_eq_true, beq_iff_eq] at hc
  exact hc.2

/-- Settles O9: a register byte that differs in an unused field alone decodes alike, and the encoder's fields are
canonical. -/
theorem unusedNibbleIgnored : Obligations.UnusedNibbleIgnored := by
  refine ⟨fun op rb x tail h => ⟨fun hA => ?_, fun hB => ?_⟩, fun i h => ?_⟩
  · exact decode_registerByte_congr h (fun hA' => by simp [hA] at hA') fun _ => lowNibble_registerByte x _
  · exact decode_registerByte_congr h (fun _ => highNibble_registerByte _ x) fun hB' => by simp [hB] at hB'
  · rw [encode_getD_zero] at h ⊢
    rw [encode_getD_one h, highNibble_registerByte, lowNibble_registerByte]
    exact ⟨rA_toRaw_of_unused, rB_toRaw_of_unused⟩

/-! ## The round trip -/

/-- Encoding, then decoding (R81). -/
theorem decode_encode_append (i : Instr) (rest : List Byte) : decode (encode i ++ rest) = .ok (i, rest) := by
  obtain ⟨bs, hbytes, hs⟩ := splitFields_encode i rest
  rw [hbytes]
  simp only [decode, opcodeFormat_toRaw, hs, toInstr_toRaw]

/-- Canonical register fields that are an instruction are its own register fields: the used ones by the opcode map,
the unused ones because both hold `F` (R74, R77). -/
theorem Raw.registers_eq_toRaw {r : Raw} {i : Instr} (h : r.toInstr = .ok i) (hc : r.canonical = true) :
    r.rA = i.toRaw.rA ∧ r.rB = i.toRaw.rB := by
  obtain ⟨hop, hA, hB, -⟩ := Raw.agreesWith_of_toInstr h
  rw [Raw.canonical, Bool.and_eq_true] at hc
  constructor
  · cases uA : Raw.usesA r.opcode with
    | true => exact hA uA
    | false => rw [rA_toRaw_of_unused (hop ▸ uA)]; simpa [uA] using hc.1
  · cases uB : Raw.usesB r.opcode with
    | true => exact hB uB
    | false => rw [rB_toRaw_of_unused (hop ▸ uB)]; simpa [uB] using hc.2

/-- Fields that are an instruction are written as its own bytes, if they are canonical where the format has a register
byte (R71, R81). -/
theorem Raw.bytes_toRaw_of_toInstr {r : Raw} {i : Instr} {f : Format} (hf : opcodeFormat r.opcode = some f)
    (h : r.toInstr = .ok i) (hc : f = .r ∨ f = .m → r.canonical = true) : i.toRaw.bytes f = r.bytes f := by
  obtain ⟨hop, -, -, himm⟩ := Raw.agreesWith_of_toInstr h
  rw [Raw.format_eq_of_toInstr hf h] at himm
  cases f with
  | n => rw [Raw.bytes, Raw.bytes, hop]
  | j => rw [Raw.bytes, Raw.bytes, hop, himm (.inl rfl)]
  | r =>
    obtain ⟨hA, hB⟩ := Raw.registers_eq_toRaw h (hc (.inl rfl))
    rw [Raw.bytes, Raw.bytes, hop, hA, hB]
  | m =>
    obtain ⟨hA, hB⟩ := Raw.registers_eq_toRaw h (hc (.inr rfl))
    rw [Raw.bytes, Raw.bytes, hop, hA, hB, himm (.inr rfl)]

/-- Decoding, then encoding, gives back bytes whose unused register fields hold `F` (R81). -/
theorem encode_append_of_decode {bs rest : List Byte} {i : Instr} (h : decode bs = .ok (i, rest))
    (hc : Raw.hasRegisterByte (bs.getD 0 0) = true →
      Raw.canonical ⟨bs.getD 0 0, highNibble (bs.getD 1 0), lowNibble (bs.getD 1 0), 0⟩ = true) :
    encode i ++ rest = bs := by
  obtain ⟨op, tail, f, raw, rfl, hf, hs, hi⟩ := decode_eq_ok h
  obtain ⟨rfl, hbytes, hnibbles⟩ := splitFields_eq_some hs
  have hcanonical : f = .r ∨ f = .m → raw.canonical = true := by
    intro hrm
    have hraw := hc ((opcodeFormat_length hf).2.2 hrm)
    obtain ⟨hA, hB⟩ := hnibbles hrm
    rw [List.getD_cons_zero, List.getD_cons_succ, ← hA, ← hB] at hraw
    exact hraw
  rw [encode, Raw.format_eq_of_toInstr hf hi, Raw.bytes_toRaw_of_toInstr hf hi hcanonical, hbytes]

/-- Settles O7: the encoder's bytes are cut back into the instruction's fields, and canonical fields are written back
as they were. -/
theorem decodeEncodeAgree : Obligations.DecodeEncodeAgree :=
  ⟨decode_encode_append, fun _ _ _ => encode_append_of_decode⟩

/-! ## Fixed bytes -/

/-- Settles O5: each row is the encoder's layout of its format, spelled out. -/
theorem encoderFollowsOpcodeMap : Obligations.EncoderFollowsOpcodeMap := by
  intro a b v rb aF bF le
  refine ⟨rfl, rfl, rfl, rfl, rfl, rfl, rfl, rfl, rfl, rfl, rfl, rfl, rfl, rfl, rfl, rfl, rfl, rfl, rfl, rfl, rfl, rfl,
    rfl, rfl, rfl, rfl, rfl, rfl⟩

/-- Settles O6: seven closed evaluations of the decoder. -/
theorem exampleBytesDecode : Obligations.ExampleBytesDecode := by
  unfold Obligations.ExampleBytesDecode
  decide

end Sys2Proof
end


section
/-! SUPPORT AND PROOF. All instructions at once (40_fsm.md R108): one equation says what `exec` answers for every
instruction, and the frames and the invariant are read off the state it commits. -/

namespace Sys2Proof

open Machine

namespace Machine

/-- The state after a read of the input at a good address (R180, R181): at the end of the input ZF alone is set;
otherwise ZF is cleared, `store` puts the item into memory, and the cursor moves past it. -/
def State.received (s : State) (store : IoItem → Memory) : State :=
  { s with
    zf := s.nextItem.isNone
    mem := s.nextItem.elim s.mem store
    cursor := if s.nextItem.isSome then s.cursor + 1 else s.cursor }

/-- The state after `f` of `x[rB]` and `x[rA]` but for `pc` (R135): the result in `x[rB]`, and the flags. -/
def State.calculated (s : State) (f : AluOp) (a b : Reg) : State :=
  (s.setReg b (aluOf f a b s).result).setFlags (aluOf f a b s).zf (aluOf f a b s).sf (aluOf f a b s).of

end Machine

/-- What an instruction changes beside `pc` once its checked addresses are in bounds (R108). -/
def Instr.effect (i : Instr) (s : State) : State :=
  match i with
  | .nop | .jmp _ | .jle _ | .jl _ | .je _ | .jne _ | .jge _ | .jg _ => s
  | .halt => s.setStatus .halted
  | .rrmovl a b => s.setReg b (s.reg a)
  | .irmovl b v => s.setReg b v
  | .rmmovl a b d => { s with mem := s.mem.store (effAddr b d s).toNat (s.reg a) .word }
  | .mrmovl a b d => s.setReg a (s.mem.load (effAddr b d s).toNat .word)
  | .movsbl a b d => s.setReg a ((s.byteAt (effAddr b d s).toNat).signExtend 32)
  | .addl a b => s.calculated .add a b
  | .subl a b => s.calculated .sub a b
  | .andl a b => s.calculated .and a b
  | .xorl a b => s.calculated .xor a b
  | .mull a b => s.calculated .mul a b
  | .cmpl a b => s.setFlags (aluOf .sub a b s).zf (aluOf .sub a b s).sf (aluOf .sub a b s).of
  | .call _ =>
    { s.setReg .esp (pushSlot s) with mem := s.mem.store (pushSlot s).toNat (s.pc + 5#32) .word }
  | .ret => s.setReg .esp (s.reg .esp + 4#32)
  | .pushl a =>
    { s.setReg .esp (pushSlot s) with
      mem := s.mem.store (pushSlot s).toNat (if a = .esp then pushSlot s else s.reg a) .word }
  | .popl a =>
    (s.setReg a (s.mem.load (popSlot s).toNat .word)).setReg .esp
      ((if a = .esp then s.mem.load (popSlot s).toNat .word else s.reg .esp) + 4#32)
  | .readb a d =>
    s.received fun item => s.mem.store (effAddr a d s).toNat ((IoItem.asByte s.cursor item).setWidth 32) .byte
  | .readl a d => s.received fun item => s.mem.store (effAddr a d s).toNat (IoItem.asWord s.cursor item) .word
  | .writeb a d => outWrite (.byte (s.byteAt (effAddr a d s).toNat)) s
  | .writel a d => outWrite (.word (s.mem.load (effAddr a d s).toNat .word)) s

/-- The state an instruction leaves when it completes: its effect, and `pc` where R26 says. -/
def Instr.committed (i : Instr) (s : State) : State := (i.effect s).setPc (i.nextPc s)

namespace Machine

/-! ## The equation of `exec` -/

/-- A jump completes where the addresses it checks are in bounds: none if it is not taken (R155). -/
theorem jumpIf_eq_of_jumpChecks (taken : Bool) (dest : Word) (s : State) :
    jumpIf taken dest s =
      if (jumpChecks taken dest).all (fun c => s.inBounds c.1 c.2) then
        .next (s.setPc (if taken then dest else s.pc + 5#32))
      else .next s.raised := by
  rw [jumpIf_eq]
  cases taken with
  | false => rfl
  | true => cases h : s.inBounds dest 1 <;> simp [jumpChecks, h, State.setStatus]

/-- An instruction with one checked address checks that one alone. -/
theorem addressOk_of_checks_singleton {i : Instr} {s : State} {a : Word} {n : Nat} (h : i.checks s = [(a, n)]) :
    i.addressOk s = s.inBounds a n := by
  rw [Instr.addressOk, h, List.all_cons, List.all_nil, Bool.and_true]

/-- Everything `exec` can answer: the committed state where the checked addresses are in bounds, else the raise of
INVALID_ADDRESS (R10, R108, R201). -/
theorem exec_eq (i : Instr) (s : State) :
    exec i s = if i.addressOk s then .next (i.committed s) else .next s.raised := by
  cases i with
  | nop | halt | rrmovl | irmovl | addl | subl | andl | xorl | mull | cmpl => rfl
  | jmp t => exact jumpIf_eq_of_jumpChecks true t s
  | jle t => exact jumpIf_eq_of_jumpChecks (condLe s.zf s.sf s.of) t s
  | jl t => exact jumpIf_eq_of_jumpChecks (condL s.sf s.of) t s
  | je t => exact jumpIf_eq_of_jumpChecks (condE s.zf) t s
  | jne t => exact jumpIf_eq_of_jumpChecks (condNe s.zf) t s
  | jge t => exact jumpIf_eq_of_jumpChecks (condGe s.sf s.of) t s
  | jg t => exact jumpIf_eq_of_jumpChecks (condG s.zf s.sf s.of) t s
  | rmmovl a b d => rw [exec_rmmovl, addressOk_of_checks_singleton rfl]; rfl
  | mrmovl a b d => rw [exec_mrmovl, addressOk_of_checks_singleton rfl]; rfl
  | movsbl a b d => rw [exec_movsbl, addressOk_of_checks_singleton rfl]; rfl
  | call t =>
    rw [exec_call, Instr.addressOk, Instr.checks, List.all_cons, List.all_cons, List.all_nil, Bool.and_true]
    rfl
  | ret => rw [exec_ret, addressOk_of_checks_singleton rfl]; rfl
  | pushl a => rw [exec_pushl, addressOk_of_checks_singleton rfl]; rfl
  | popl a => rw [exec_popl, addressOk_of_checks_singleton rfl]; rfl
  | writeb a d => rw [exec_writeb, addressOk_of_checks_singleton rfl]; rfl
  | writel a d => rw [exec_writel, addressOk_of_checks_singleton rfl]; rfl
  | readb a d =>
    rw [exec_readb, addressOk_of_checks_singleton rfl]
    cases h : s.nextItem <;>
      simp [Instr.committed, Instr.effect, Instr.nextPc, State.received, State.setPc, Memory.store, h]
  | readl a d =>
    rw [exec_readl, addressOk_of_checks_singleton rfl]
    cases h : s.nextItem <;> simp [Instr.committed, Instr.effect, Instr.nextPc, State.received, State.setPc, h]

/-- What a next state of `exec` is: the committed state, behind checks that passed, or the raise of INVALID_ADDRESS,
behind one that failed. -/
theorem exec_next_cases {i : Instr} {s t : State} (h : exec i s = .next t) :
    (i.addressOk s = true ∧ t = i.committed s) ∨ (i.addressOk s = false ∧ t = s.raised) := by
  rw [exec_eq] at h
  cases hok : i.addressOk s with
  | true =>
    rw [hok, if_pos rfl] at h
    cases h
    exact .inl ⟨rfl, rfl⟩
  | false =>
    rw [hok, if_neg Bool.false_ne_true] at h
    cases h
    exact .inr ⟨rfl, rfl⟩

/-! ## The fields of the committed state -/

theorem status_committed (i : Instr) (s : State) :
    (i.committed s).status = if i = .halt then .halted else s.status := by
  cases i <;> rfl

/-- R23: the registers outside the "writes" column. -/
theorem reg_committed {i : Instr} {r : Reg} (h : i.writesReg r = false) (s : State) :
    (i.committed s).reg r = s.reg r := by
  cases i with
  | rrmovl | irmovl | mrmovl | movsbl | addl | subl | andl | xorl | mull | call | ret | pushl =>
    refine (RegFile.read_write s.regs _ r _).trans (if_neg ?_)
    simpa [Instr.writesReg] using h
  | popl a =>
    have hne : r ≠ a ∧ r ≠ .esp := by simpa [Instr.writesReg] using h
    refine (RegFile.read_write _ _ r _).trans ((if_neg hne.2).trans ?_)
    exact (RegFile.read_write s.regs a r _).trans (if_neg hne.1)
  | nop | halt | rmmovl | cmpl | jmp | jle | jl | je | jne | jge | jg | readb | readl | writeb | writel => rfl

/-- R29: SF and OF outside the ALU six. -/
theorem sf_of_committed {i : Instr} (h : i.writesSfOf = false) (s : State) :
    (i.committed s).sf = s.sf ∧ (i.committed s).of = s.of := by
  cases i with
  | addl | subl | andl | xorl | mull | cmpl => cases h
  | _ => exact ⟨rfl, rfl⟩

/-- R29: ZF outside the ALU six and the reads. -/
theorem zf_committed {i : Instr} (h : i.writesZf = false) (s : State) : (i.committed s).zf = s.zf := by
  cases i with
  | addl | subl | andl | xorl | mull | cmpl | readb | readl => cases h
  | _ => rfl

/-- No instruction writes a run parameter (R6, R31). -/
theorem memSize_input_committed (i : Instr) (s : State) :
    (i.committed s).memSize = s.memSize ∧ (i.committed s).input = s.input := by
  cases i <;> exact ⟨rfl, rfl⟩

/-- A read of the input moves the cursor past the item it delivers, if there is one (R64). -/
theorem cursor_of_received {s t : State} (ht : t.cursor = if s.nextItem.isSome then s.cursor + 1 else s.cursor) :
    t.cursor = s.cursor ∨ t.cursor = s.cursor + 1 ∧ s.nextItem.isSome = true := by
  cases h : s.nextItem.isSome with
  | false => exact .inl (by simp [ht, h])
  | true => exact .inr ⟨by simp [ht, h], rfl⟩

/-- The cursor moves in the two reads alone, past an item that exists (R64). -/
theorem cursor_committed (i : Instr) (s : State) :
    (i.committed s).cursor = s.cursor ∨ ((i.committed s).cursor = s.cursor + 1 ∧ s.nextItem.isSome = true ∧
      ∃ a d, i = .readb a d ∨ i = .readl a d) := by
  cases i with
  | readb a d =>
    exact (cursor_of_received (t := (Instr.readb a d).committed s) rfl).imp_right
      fun ⟨hcursor, hitem⟩ => ⟨hcursor, hitem, a, d, .inl rfl⟩
  | readl a d =>
    exact (cursor_of_received (t := (Instr.readl a d).committed s) rfl).imp_right
      fun ⟨hcursor, hitem⟩ => ⟨hcursor, hitem, a, d, .inr rfl⟩
  | _ => exact .inl rfl

/-- The output record grows in the two writes alone (R65). -/
theorem output_committed (i : Instr) (s : State) :
    (i.committed s).output = s.output ∨
      ∃ x a d, (i.committed s).output = s.output ++ [x] ∧ (i = .writeb a d ∨ i = .writel a d) := by
  cases i with
  | writeb a d => exact .inr ⟨_, a, d, rfl, .inl rfl⟩
  | writel a d => exact .inr ⟨_, a, d, rfl, .inr rfl⟩
  | _ => exact .inl rfl

/-- Memory changes by the one store that R52 lists for the instruction, if it lists one. -/
theorem mem_committed (i : Instr) (s : State) :
    (i.committed s).mem = s.mem ∨ ∃ ea w v, i.storeSite s = some (ea, Width.bytes w) ∧
      (i.committed s).mem = s.mem.store ea.toNat v w := by
  cases i with
  | rmmovl | call | pushl => exact .inr ⟨_, .word, _, rfl, rfl⟩
  | readb a d =>
    cases h : s.nextItem with
    | none => exact .inl (by simp [Instr.committed, Instr.effect, State.received, h])
    | some item =>
      refine .inr ⟨_, .byte, (IoItem.asByte s.cursor item).setWidth 32, by rw [Instr.storeSite, h]; rfl, ?_⟩
      simp [Instr.committed, Instr.effect, State.received, h]
  | readl a d =>
    cases h : s.nextItem with
    | none => exact .inl (by simp [Instr.committed, Instr.effect, State.received, h])
    | some item =>
      refine .inr ⟨_, .word, IoItem.asWord s.cursor item, by rw [Instr.storeSite, h]; rfl, ?_⟩
      simp [Instr.committed, Instr.effect, State.received, h]
  | _ => exact .inl rfl

/-- The address an instruction stores to is one it checks (R47, R52). -/
theorem inBounds_storeSite {i : Instr} {s : State} {ea : Word} {n : Nat} (hok : i.addressOk s = true)
    (h : i.storeSite s = some (ea, n)) : s.inBounds ea n = true := by
  cases i with
  | rmmovl | pushl =>
    cases h
    rwa [addressOk_of_checks_singleton rfl] at hok
  | call t =>
    cases h
    simp only [Instr.addressOk, Instr.checks, List.all_cons, Bool.and_eq_true] at hok
    exact hok.2.1
  | readb | readl =>
    rw [addressOk_of_checks_singleton rfl] at hok
    simp only [Instr.storeSite] at h
    split at h
    · cases h
      exact hok
    · cases h
  | _ => cases h

end Machine

/-! ## The frames -/

/-- Settles O16: the two branches of `exec_eq`. -/
theorem completesOrTakesInvalidAddress : Obligations.CompletesOrTakesInvalidAddress := by
  refine fun i s => ⟨fun h => ⟨i.committed s, ?_, rfl, status_committed i s⟩, fun h => ?_⟩
  · rw [exec_eq, if_pos h]
  · rw [exec_eq, h, if_neg Bool.false_ne_true]

/-- Settles O17: a raise writes no register, a commit only those of R23. -/
theorem registerFrame : Obligations.RegisterFrame := by
  intro i s t h r hr
  obtain ⟨-, rfl⟩ | ⟨-, rfl⟩ := exec_next_cases h
  · exact reg_committed hr s
  · rfl

/-- Settles O18: a raise writes no flag, a commit only those of R29. -/
theorem flagFrame : Obligations.FlagFrame := by
  intro i s t h
  obtain ⟨-, rfl⟩ | ⟨-, rfl⟩ := exec_next_cases h
  · exact ⟨fun hw => sf_of_committed hw s, fun hw => zf_committed hw s⟩
  · exact ⟨fun _ => ⟨rfl, rfl⟩, fun _ => rfl⟩

/-- Settles O20: a raise touches no port, a commit moves the cursor and the output record as R64 and R65 say. -/
theorem portFrame : Obligations.PortFrame := by
  intro i s t h
  obtain ⟨-, rfl⟩ | ⟨-, rfl⟩ := exec_next_cases h
  · obtain ⟨hsize, hinput⟩ := memSize_input_committed i s
    exact ⟨hsize, hinput, cursor_committed i s, output_committed i s⟩
  · exact ⟨rfl, rfl, .inl rfl, .inl rfl⟩

/-- A store of either width leaves the bytes outside its own (R45, R46). -/
theorem Machine.Memory.read_store_of_outside {m : Memory} (hwf : m.wf = true) {a b : Nat} (v : Word) {w : Width}
    (h : ¬(a ≤ b ∧ b < a + w.bytes)) : (m.store a v w).read b = m.read b := by
  cases w with
  | byte =>
    refine (Memory.read_store_byte hwf a v b).trans (if_neg fun hb => h ⟨hb.ge, ?_⟩)
    rw [hb]
    exact Nat.lt_succ_self a
  | word => exact (Memory.read_store_word hwf a v b).trans (if_neg h)

/-- Settles O19: memory changes by the one store of R52, which leaves every other byte. -/
theorem memoryFrame : Obligations.MemoryFrame := by
  intro i s t hwf h a hout
  obtain ⟨-, rfl⟩ | ⟨-, rfl⟩ := exec_next_cases h
  · obtain hmem | ⟨ea, w, v, hsite, hmem⟩ := mem_committed i s
    · rw [State.byteAt, hmem, State.byteAt]
    · rw [State.byteAt, hmem, Memory.read_store_of_outside hwf v (hout ea _ hsite), State.byteAt]
  · rfl

/-! ## The invariant -/

namespace Machine

/-- The cursor lies within the input where an item is left to read, and behind that item too (R64). -/
theorem cursorOk_of_nextItem {s t : State} (hinput : t.input = s.input) (hcursor : t.cursor = s.cursor + 1)
    (h : s.nextItem.isSome = true) : t.cursorOk = true := by
  rw [State.nextItem, inputItem_isSome] at h
  rw [State.cursorOk, hinput, hcursor, Bool.or_eq_true, decide_eq_true_eq]
  exact h.symm

/-- A commit behind checks that passed keeps the invariant: its store is in bounds, and its read delivers an item that
exists (R47, R64). -/
theorem inv_committed {i : Instr} {s : State} (hinv : s.Inv) (hok : i.addressOk s = true) : (i.committed s).Inv := by
  obtain ⟨hwf, hwithin, hcursorOk⟩ := hinv
  obtain ⟨hsize, hinput⟩ := memSize_input_committed i s
  have hmem : (i.committed s).mem.wf = true ∧ (i.committed s).mem.within s.memSize.val = true := by
    obtain hmem | ⟨ea, w, v, hsite, hmem⟩ := mem_committed i s <;> rw [hmem]
    · exact ⟨hwf, hwithin⟩
    · have hle := State.toNat_add_le_of_inBounds (inBounds_storeSite hok hsite)
      exact ⟨Memory.wf_store hwf _ v w, Memory.within_store v w hle hwithin⟩
  refine ⟨hmem.1, hsize ▸ hmem.2, ?_⟩
  obtain hcursor | ⟨hcursor, hitem, -⟩ := cursor_committed i s
  · rwa [State.cursorOk, hinput, hcursor]
  · exact cursorOk_of_nextItem hinput hcursor hitem

/-- A change of `status` alone keeps the invariant, which does not speak of it. -/
theorem inv_setStatus {s : State} (hinv : s.Inv) (v : Status) : (s.setStatus v).Inv := hinv

theorem inv_of_step {s t : State} (hinv : s.Inv) (h : step s = .next t) : t.Inv := by
  obtain ⟨-, ⟨c, -, rfl⟩ | ⟨i, -, hexec⟩⟩ := step_next h
  · exact inv_setStatus hinv _
  · obtain ⟨hok, rfl⟩ | ⟨-, rfl⟩ := exec_next_cases hexec
    · exact inv_committed hinv hok
    · exact inv_setStatus hinv _

end Machine

/-- Settles O21: a step raises, which changes `status` alone, or commits an instruction, which keeps the invariant. -/
theorem stepKeepsInvariant : Obligations.StepKeepsInvariant := fun _ _ => inv_of_step

end Sys2Proof
end


section
/-! SUPPORT AND PROOF. The step (40_fsm.md section 3): what it is for the bytes at `pc` to be an instruction, the causes
of the fetch in their order, and from these where each status comes from. -/

namespace Sys2Proof.Machine

/-! ## The instruction at `pc` -/

@[simp] theorem State.length_bytesAt (s : State) (a n : Nat) : (s.bytesAt a n).length = n := by
  simp [State.bytesAt]

theorem State.getElem_bytesAt (s : State) {a n k : Nat} (h : k < (s.bytesAt a n).length) :
    (s.bytesAt a n)[k] = s.byteAt (a + k) := by
  simp [State.bytesAt]

/-- Fewer bytes from the same address are in bounds too (R42). -/
theorem State.inBounds_mono {s : State} {a : Word} {m n : Nat} (h : s.inBounds a n = true) (hmn : m ≤ n) :
    s.inBounds a m = true := by
  obtain ⟨h0, h1⟩ := State.inBounds_iff.1 h
  exact State.inBounds_iff.2 ⟨h0, by omega⟩

/-- FETCH and DECODE find the instruction that the bytes at `pc` are (R103 to R107). -/
theorem fetchInstr_of_holdsAtPc {s : State} {i : Instr} (h : s.holdsAtPc i) : fetchInstr s = .ok i := by
  obtain ⟨hin, hdecode⟩ := h
  obtain ⟨n, hn⟩ : ∃ n, i.length = n + 1 := ⟨i.length - 1, by have := i.length_pos; omega⟩
  have hlen : encodedLength (s.byteAt s.pc.toNat) = some i.length := by
    rw [hn, State.bytesAt_succ] at hdecode
    exact (length_of_decode hdecode).1
  rw [fetchInstr_eq, if_pos (State.inBounds_mono hin i.length_pos)]
  simp only [hlen, hin, if_true, hdecode]

/-- What FETCH and DECODE find is the instruction that the bytes at `pc` are: its length is the one the opcode byte
gave, so nothing is left behind it. -/
theorem holdsAtPc_of_fetchInstr {s : State} {i : Instr} (h : fetchInstr s = .ok i) : s.holdsAtPc i := by
  rw [fetchInstr_eq] at h
  split at h
  case isFalse => cases h
  split at h
  case h_1 => cases h
  rename_i len hlen
  split at h
  case isFalse => cases h
  rename_i hin
  split at h
  case h_2 => cases h
  rename_i j rest hdecode
  cases h
  obtain ⟨n, rfl⟩ : ∃ n, len = n + 1 := by
    cases len with
    | zero => cases hdecode
    | succ n => exact ⟨n, rfl⟩
  have hcons := hdecode
  rw [State.bytesAt_succ] at hcons
  obtain ⟨hlen', hsum⟩ := length_of_decode hcons
  rw [← State.bytesAt_succ, State.length_bytesAt] at hsum
  have hi : i.length = n + 1 := Option.some.inj (hlen'.symm.trans hlen)
  have hrest : rest = [] := List.eq_nil_of_length_eq_zero (by omega)
  exact ⟨hi ▸ hin, by rw [hi, hdecode, hrest]⟩

theorem step_of_holdsAtPc {s : State} {i : Instr} (hs : s.status = .running) (h : s.holdsAtPc i) :
    step s = exec i s := by
  rw [step_running hs, fetchInstr_of_holdsAtPc h]

/-- The encoder's bytes at `pc` are the instruction (R81). -/
theorem holdsAtPc_of_bytesAt_eq_encode {s : State} {i : Instr} (hin : s.inBounds s.pc i.length = true)
    (h : s.bytesAt s.pc.toNat i.length = encode i) : s.holdsAtPc i :=
  ⟨hin, by rw [h, ← List.append_nil (encode i), decode_encode_append]⟩

/-! ## The causes of the fetch, in their order (R111) -/

theorem step_of_fetchInstr_error {s : State} {c : Cause} (hs : s.status = .running) (h : fetchInstr s = .error c) :
    step s = .next { s with status := c.status } := by
  rw [step_running hs, h]
  exact takeException_eq c s

theorem fetchInstr_of_pc_outOfBounds {s : State} (h : s.inBounds s.pc 1 = false) :
    fetchInstr s = .error .invalidAddress := by
  rw [fetchInstr_eq, h, if_neg Bool.false_ne_true]

theorem fetchInstr_of_unknown {s : State} (h : s.inBounds s.pc 1 = true)
    (hk : Raw.knownOpcode (s.byteAt s.pc.toNat) = false) : fetchInstr s = .error .invalidInstruction := by
  rw [fetchInstr_eq, if_pos h]
  simp only [encodedLength_of_unknown hk]

theorem fetchInstr_of_truncated {s : State} (h : s.inBounds s.pc 1 = true)
    (hk : Raw.knownOpcode (s.byteAt s.pc.toNat) = true)
    (hl : s.inBounds s.pc (Raw.length (s.byteAt s.pc.toNat)) = false) : fetchInstr s = .error .invalidAddress := by
  rw [fetchInstr_eq, if_pos h]
  simp [encodedLength_of_known hk, hl]

/-- The register fields of the bytes at `pc`: of an opcode with a register byte they are its nibbles, and of another
opcode no field is in use (R73, R107). -/
theorem fieldsInRange_bytesAt (s : State) (a : Nat) :
    let bs := s.bytesAt a (Raw.length (s.byteAt a))
    Raw.fieldsInRange ⟨s.byteAt a, highNibble (bs.getD 1 0), lowNibble (bs.getD 1 0), 0⟩ =
      Raw.fieldsInRange ⟨s.byteAt a, highNibble (s.byteAt (a + 1)), lowNibble (s.byteAt (a + 1)), 0⟩ := by
  intro bs
  have hsecond (h : Raw.hasRegisterByte (s.byteAt a) = true) : bs.getD 1 0 = s.byteAt (a + 1) := by
    have hlt : 1 < bs.length := by
      rw [State.length_bytesAt]
      exact Raw.two_le_length_of_hasRegisterByte h
    rw [List.getD_eq_getElem bs 0 hlt, State.getElem_bytesAt]
  refine Raw.fieldsInRange_congr rfl (fun hA => ?_) fun hB => ?_
  · exact congrArg highNibble (hsecond (Raw.hasRegisterByte_of_usesA hA))
  · exact congrArg lowNibble (hsecond (Raw.hasRegisterByte_of_usesB hB))

/-- The bytes of the length the opcode byte gives begin with that byte. -/
theorem bytesAt_length_eq_cons (s : State) (a : Nat) :
    ∃ tail, s.bytesAt a (Raw.length (s.byteAt a)) = s.byteAt a :: tail := by
  obtain ⟨n, hn⟩ : ∃ n, Raw.length (s.byteAt a) = n + 1 := Nat.exists_eq_succ_of_ne_zero (by
    unfold Raw.length
    split_ifs <;> decide)
  exact ⟨_, by rw [hn, State.bytesAt_succ]⟩

theorem fetchInstr_of_badRegister {s : State} (h : s.inBounds s.pc 1 = true)
    (hk : Raw.knownOpcode (s.byteAt s.pc.toNat) = true)
    (hl : s.inBounds s.pc (Raw.length (s.byteAt s.pc.toNat)) = true)
    (hr : Raw.fieldsInRange ⟨s.byteAt s.pc.toNat, highNibble (s.byteAt (s.pc.toNat + 1)),
      lowNibble (s.byteAt (s.pc.toNat + 1)), 0⟩ = false) : fetchInstr s = .error .invalidInstruction := by
  obtain ⟨tail, hcons⟩ := bytesAt_length_eq_cons s s.pc.toNat
  have hlen := congrArg List.length hcons
  rw [← fieldsInRange_bytesAt, hcons] at hr
  rw [State.length_bytesAt] at hlen
  rw [fetchInstr_eq, if_pos h]
  simp only [encodedLength_of_known hk, hl, if_true, hcons, decode_of_badRegister hk hlen.le hr, causeOf]

theorem exists_holdsAtPc {s : State} (hk : Raw.knownOpcode (s.byteAt s.pc.toNat) = true)
    (hl : s.inBounds s.pc (Raw.length (s.byteAt s.pc.toNat)) = true)
    (hr : Raw.fieldsInRange ⟨s.byteAt s.pc.toNat, highNibble (s.byteAt (s.pc.toNat + 1)),
      lowNibble (s.byteAt (s.pc.toNat + 1)), 0⟩ = true) : ∃ i, s.holdsAtPc i := by
  obtain ⟨tail, hcons⟩ := bytesAt_length_eq_cons s s.pc.toNat
  have hlen := congrArg List.length hcons
  rw [State.length_bytesAt] at hlen
  rw [← fieldsInRange_bytesAt, hcons] at hr
  obtain ⟨i, hdecode, hi⟩ := exists_decode_eq_ok hk hlen.le hr
  rw [List.drop_eq_nil_of_le hlen.ge, ← hcons, ← hi] at hdecode
  exact ⟨i, hi ▸ hl, hdecode⟩

/-! ## Where a status comes from -/

/-- `exec` never answers INVALID_INSTRUCTION from a running state (R202). -/
theorem exec_status_cases {i : Instr} {s t : State} (hs : s.status = .running) (h : exec i s = .next t) :
    t.status = .running ∨ t.status = .invalidAddress ∨ (t.status = .halted ∧ i = .halt) := by
  obtain ⟨-, rfl⟩ | ⟨-, rfl⟩ := exec_next_cases h
  · rw [status_committed]
    split
    · exact .inr (.inr ⟨rfl, ‹_›⟩)
    · exact .inl hs
  · exact .inr (.inl rfl)

end Sys2Proof.Machine

namespace Sys2Proof
open Machine

/-- Settles O10: the fetch finds the instruction the bytes at `pc` decode to. -/
theorem stepRunsDecodedInstruction : Obligations.StepRunsDecodedInstruction := fun _ _ => step_of_holdsAtPc

/-- Settles O11: one lemma about the fetch per cause, in the order of the clauses. -/
theorem stepFollowsCausePriority : Obligations.StepFollowsCausePriority := by
  intro s op rb raw
  refine ⟨step_terminal, fun hs h => ?pcOut, fun hs h => ⟨fun hk => ?unknown, fun hk hl => ?truncated,
    fun hk hl hr => ?badRegister, fun hk hl hr => ?runs⟩⟩
  case pcOut => exact step_of_fetchInstr_error hs (fetchInstr_of_pc_outOfBounds h)
  case unknown => exact step_of_fetchInstr_error hs (fetchInstr_of_unknown h hk)
  case truncated => exact step_of_fetchInstr_error hs (fetchInstr_of_truncated h hk hl)
  case badRegister => exact step_of_fetchInstr_error hs (fetchInstr_of_badRegister h hk hl hr)
  case runs =>
    obtain ⟨i, hi⟩ := exists_holdsAtPc hk hl hr
    exact ⟨i, hi, step_of_holdsAtPc hs hi⟩

/-- Settles O13: the two exception statuses come from a raise, of the fetch or of the instruction, never from a
commit. -/
theorem exceptionChangesStatusOnly : Obligations.ExceptionChangesStatusOnly := by
  intro s t h hstatus
  obtain ⟨hs, ⟨c, -, rfl⟩ | ⟨i, -, hexec⟩⟩ := step_next h
  · rfl
  · obtain ⟨-, rfl⟩ | ⟨-, rfl⟩ := exec_next_cases hexec
    · rw [status_committed] at hstatus
      split at hstatus <;> simp [hs] at hstatus
    · rfl

/-- Settles O14: no raise sets HALTED, and of the instructions `halt` alone does. -/
theorem haltedSetByHaltAlone : Obligations.HaltedSetByHaltAlone := by
  refine ⟨rfl, fun s t h => ?_⟩
  have hcommit (hat : s.holdsAtPc .halt) : t = { s with status := .halted, pc := s.pc + 1#32 } := by
    rw [step_of_holdsAtPc (step_next h).1 hat, exec_halt] at h
    cases h
    rfl
  have hat (hstatus : t.status = .halted) : s.holdsAtPc .halt := by
    obtain ⟨hs, ⟨c, -, rfl⟩ | ⟨i, hfetch, hexec⟩⟩ := step_next h
    · cases c <;> cases hstatus
    · obtain hr | ha | ⟨-, rfl⟩ := exec_status_cases hs hexec
      · cases hr.symm.trans hstatus
      · cases ha.symm.trans hstatus
      · exact holdsAtPc_of_fetchInstr hfetch
  exact ⟨⟨hat, fun hh => by rw [hcommit hh]⟩, fun hstatus => hcommit (hat hstatus)⟩

/-- Settles O15: along the clauses of `stepFollowsCausePriority`, each of which says what the next state is. -/
theorem invalidInstructionCauses : Obligations.InvalidInstructionCauses := by
  intro s t h op rb
  have hs := (step_next h).1
  obtain ⟨-, hpcOut, hcauses⟩ := stepFollowsCausePriority s
  cases hpc : s.inBounds s.pc 1 with
  | false =>
    cases (hpcOut hs hpc).symm.trans h
    simp
  | true =>
    obtain ⟨hunknown, htruncated, hbad, hruns⟩ := hcauses hs hpc
    cases hk : Raw.knownOpcode op with
    | false =>
      cases (hunknown hk).symm.trans h
      simp
    | true =>
      cases hl : s.inBounds s.pc (Raw.length op) with
      | false =>
        cases (htruncated hk hl).symm.trans h
        simp
      | true =>
        cases hr : Raw.fieldsInRange ⟨op, rb.extractLsb' 4 4, rb.extractLsb' 0 4, 0⟩ with
        | false =>
          cases (hbad hk hl hr).symm.trans h
          simp
        | true =>
          obtain ⟨i, -, hstep⟩ := hruns hk hl hr
          obtain hstatus | hstatus | ⟨hstatus, -⟩ := exec_status_cases hs (hstep.symm.trans h) <;> simp [hstatus]

end Sys2Proof
end

section
/-! SUPPORT AND PROOF. Bytes placed in memory and fetched from there (20_memory.md section 6, D26): an instruction
stored right behind its store, the word of `withFetchWord`, and a zero byte. -/

namespace Sys2Proof.Machine

/-- The bytes read from where bytes were written are those bytes (R46, R50). -/
theorem bytesAt_of_writeBytes {s t : State} {a n : Nat} {bs : List Byte} (hwf : s.mem.wf = true)
    (ht : t.mem = s.mem.writeBytes a bs) (hn : n ≤ bs.length) : t.bytesAt a n = bs.take n := by
  refine List.ext_getElem (by simp [hn]) fun k h1 h2 => ?_
  have hk : k < bs.length := by simp at h2; omega
  rw [State.getElem_bytesAt, State.byteAt, ht, Memory.read_writeBytes hwf, if_pos (Nat.le_add_right a k),
    Nat.add_sub_cancel_left, List.getElem?_eq_getElem hk, Option.getD_some, List.getElem_take]

/-- Bytes written leave every other byte of memory as it was (R46). -/
theorem sameOutside_of_writeBytes {s t : State} {a : Word} {bs : List Byte} (hwf : s.mem.wf = true)
    (ht : t.mem = s.mem.writeBytes a.toNat bs) : s.sameOutside t a bs.length := by
  intro x hx
  rw [State.byteAt, ht, Memory.read_writeBytes hwf, State.byteAt]
  split
  · rw [List.getElem?_eq_none (by omega), Option.getD_none]
  · rfl

theorem length_tableBytes (nbits w : Nat) : (tableBytes nbits w).length = 6 := by
  rw [tableBytes, List.length_map, List.length_range]

/-- `readyToFetch` gives memory room for six bytes at `pc`. -/
theorem inBounds_readyToFetch (s : State) : s.readyToFetch.inBounds s.readyToFetch.pc 6 = true := by
  have hpc : s.readyToFetch.pc.toNat + 6 < 2 ^ 31 := by
    show (if s.pc.toNat + 6 < 2 ^ 31 then s.pc else 0#32).toNat + 6 < 2 ^ 31
    split
    · assumption
    · decide
  have hsize : s.readyToFetch.memSize.val = max s.memSize.val (s.readyToFetch.pc.toNat + 6) :=
    Nat.mod_eq_of_lt (Nat.max_lt.2 ⟨s.memSize.isLt, hpc⟩)
  exact State.inBounds_iff_toNat.2 ⟨by omega, by rw [hsize]; exact Nat.le_max_right _ _⟩

/-- A running state with room for six bytes at `pc` is left alone (log entry 16). -/
theorem readyToFetch_eq_self {s : State} (hs : s.status = .running) (h : s.inBounds s.pc 6 = true) :
    s.readyToFetch = s := by
  have hle := State.toNat_add_le_of_inBounds h
  have hlt := s.memSize.isLt
  have hsize : Fin.ofNat (2 ^ 31) (max s.memSize.val (s.pc.toNat + 6)) = s.memSize := by
    rw [Nat.max_eq_left hle]
    exact Fin.ofNat_val_eq_self s.memSize
  simp only [State.readyToFetch, if_pos (show s.pc.toNat + 6 < 2 ^ 31 by omega), hsize, ← hs]

/-- The bytes of an opcode-table word, placed at `pc` with room for six, are its instruction. -/
theorem holdsAtPc_placeAtPc {s : State} {nbits w : Nat} {i : Instr} (hwf : s.mem.wf = true)
    (hin : s.inBounds s.pc 6 = true) (h : decodeTableWord nbits w = some i) :
    (s.placeAtPc (tableBytes nbits w)).holdsAtPc i := by
  rw [decodeTableWord] at h
  split at h
  case h_2 => cases h
  rename_i j rest hdecode
  cases h
  have hlen : i.length ≤ (tableBytes nbits w).length := (length_tableBytes nbits w).symm ▸ i.length_le
  refine ⟨State.inBounds_mono hin i.length_le, ?_⟩
  rw [bytesAt_of_writeBytes (s := s) hwf rfl hlen]
  exact decode_take hdecode

end Sys2Proof.Machine

namespace Sys2Proof
open Machine

/-- Settles O26: the bytes behind the store are the instruction's, and the store left a running state there. -/
theorem storedInstructionRunsNext : Obligations.StoredInstructionRunsNext := by
  intro a b d s t i hwf hs hea hin hlen hbytes h
  have hin' : s.inBounds (effAddr b d s) 4 = true := (congrArg (s.inBounds · 4) hea).trans hin
  rw [exec_rmmovl, if_pos hin'] at h
  cases h
  have hstored : s.mem.store (effAddr b d s).toNat (s.reg a) .word =
      s.mem.writeBytes (s.pc + 6#32).toNat (bytesOfWord (s.reg a)) :=
    congrArg (fun x : Word => s.mem.writeBytes x.toNat _) hea
  refine step_of_holdsAtPc hs (holdsAtPc_of_bytesAt_eq_encode (State.inBounds_mono hin hlen) ?_)
  rw [hbytes]
  exact bytesAt_of_writeBytes hwf hstored hlen

/-- Settles O27: the word's bytes stand at the `pc` of a running state with room for them. -/
theorem fetchWordRunsNext : Obligations.FetchWordRunsNext := by
  intro s nbits w i hwf hi
  refine ⟨step_of_holdsAtPc rfl (holdsAtPc_placeAtPc hwf (inBounds_readyToFetch s) hi), fun hs hin => ?_⟩
  have hready := readyToFetch_eq_self hs hin
  refine ⟨by rw [State.withFetchWord, hready]; rfl, ?_⟩
  have hmem : (s.withFetchWord nbits w).mem = s.mem.writeBytes s.pc.toNat (tableBytes nbits w) := by
    rw [State.withFetchWord, hready]; rfl
  have houtside := sameOutside_of_writeBytes hwf hmem
  rwa [length_tableBytes] at houtside

/-- Settles O28: a zero byte is the encoding of `nop`. -/
theorem nopAdvancesOneByte : Obligations.NopAdvancesOneByte := by
  refine ⟨rfl, exec_nop, fun s hs hin hzero => ?_⟩
  have hbytes : s.bytesAt s.pc.toNat 1 = encode .nop := by
    rw [State.bytesAt_succ, hzero]
    rfl
  rw [step_of_holdsAtPc hs (holdsAtPc_of_bytesAt_eq_encode (i := .nop) hin hbytes), exec_nop]

end Sys2Proof
end


section
/-! SUPPORT AND PROOF. Runs (40_fsm.md R113): what a step does to the input and its cursor, how a step depends on the
input, and from these the statements about any number of steps on any input. -/

namespace Sys2Proof.Machine

/-! ## The input port -/

/-- The input port of a run delivers the sequence's item at the cursor (R64). -/
theorem nextItem_offer (q : Input) (s : State) : (s.offer q).nextItem = q.item s.cursor :=
  inputItem_listed (Nat.lt_succ_self s.cursor)

/-- A finite input that the state lists already is offered as it is. -/
theorem offer_eq_self {items : List IoItem} {s : State} (h : s.input = ⟨items, false⟩) :
    s.offer (.finite items) = s := by
  rw [State.offer, Input.listed_finite, ← h]

/-! ## What a step does to the input and its cursor -/

/-- A step leaves the input, and moves the cursor past one item that exists, if at all (R64). -/
theorem input_cursor_of_step {s t : State} (h : step s = .next t) :
    t.input = s.input ∧ (t.cursor = s.cursor ∨ t.cursor = s.cursor + 1 ∧ s.nextItem.isSome = true) := by
  obtain ⟨-, ⟨c, -, rfl⟩ | ⟨i, -, hexec⟩⟩ := step_next h
  · exact ⟨rfl, .inl rfl⟩
  · obtain ⟨-, hinput, hcursor, -⟩ := portFrame i s t hexec
    exact ⟨hinput, hcursor.imp_right fun ⟨hmove, hitem, _⟩ => ⟨hmove, hitem⟩⟩

theorem step_of_nextItem_eq_none {s t : State} (h : step s = .next t) (hnone : s.nextItem = none) :
    t.nextItem = none ∧ t.cursor = s.cursor := by
  obtain ⟨hinput, hcursor | ⟨-, hsome⟩⟩ := input_cursor_of_step h
  · exact ⟨by rw [State.nextItem, hinput, hcursor]; exact hnone, hcursor⟩
  · simp [hnone] at hsome

/-! ## How a step depends on the input -/

theorem received_withInput {s : State} {q : InputSeq} (h : inputItem q s.cursor = s.nextItem)
    (store : IoItem → Memory) :
    State.received { s with input := q } store = { s.received store with input := q } := by
  have hnext : State.nextItem { s with input := q } = s.nextItem := h
  simp only [State.received, hnext]

/-- The next item is all that a commit takes from the input (R113). -/
theorem committed_withInput {s : State} {q : InputSeq} (h : inputItem q s.cursor = s.nextItem) (i : Instr) :
    i.committed { s with input := q } = { i.committed s with input := q } := by
  cases i with
  | readb a d => exact congrArg (State.setPc · _) (received_withInput h _)
  | readl a d => exact congrArg (State.setPc · _) (received_withInput h _)
  | _ => rfl

/-- No check looks at the input (R47). -/
theorem addressOk_withInput (i : Instr) (s : State) (q : InputSeq) :
    i.addressOk { s with input := q } = i.addressOk s := by
  cases i <;> rfl

/-- The fetch does not look at the input (R103 to R107). -/
theorem fetchInstr_withInput (s : State) (q : InputSeq) : fetchInstr { s with input := q } = fetchInstr s := by
  rw [fetchInstr_eq, fetchInstr_eq]
  rfl

/-- A step on another input that has the same next item is the same step (R113). -/
theorem step_withInput {s t : State} {q : InputSeq} (h : inputItem q s.cursor = s.nextItem) (hstep : step s = .next t) :
    step { s with input := q } = .next { t with input := q } := by
  obtain ⟨hs, ⟨c, hfetch, rfl⟩ | ⟨i, hfetch, hexec⟩⟩ := step_next hstep
  · exact step_of_fetchInstr_error hs ((fetchInstr_withInput s q).trans hfetch)
  · rw [step_running (s := { s with input := q }) hs, fetchInstr_withInput, hfetch]
    show exec i _ = _
    rw [exec_eq, addressOk_withInput]
    obtain ⟨hok, rfl⟩ | ⟨hok, rfl⟩ := exec_next_cases hexec
    · rw [if_pos hok, committed_withInput h]
    · rw [hok, if_neg Bool.false_ne_true]

/-! ## Runs, one step at a time -/

theorem State.after_succ {s t : State} (h : step s = .next t) (n : Nat) : s.after (n + 1) = t.after n := by
  simp only [State.after, h]

theorem State.runOn_succ {q : Input} {s t : State} (h : stepOn q s = .next t) (n : Nat) :
    s.runOn q (n + 1) = t.runOn q n := by
  simp only [State.runOn, h]

theorem State.runOn_of_terminal {q : Input} {s : State} (h : s.status ≠ .running) (n : Nat) : s.runOn q n = s := by
  cases n with
  | zero => rfl
  | succ n =>
    have hstop : stepOn q s = .fault .runOver := step_terminal (s := s.offer q) h
    simp only [State.runOn, hstop]

/-- The items from the next cursor on are among those from this cursor on. -/
theorem agree_of_step {s t : State} (h : step s = .next t) {n : Nat} {f g : Nat → Option IoItem}
    (hagree : ∀ k, s.cursor ≤ k → k < s.cursor + (n + 1) → f k = g k) :
    ∀ k, t.cursor ≤ k → k < t.cursor + n → f k = g k := by
  intro k hle hlt
  obtain ⟨-, hcursor | ⟨hcursor, -⟩⟩ := input_cursor_of_step h <;> exact hagree k (by omega) (by omega)

/-- A run of `n` steps reads the next `n` items of the input and no other (R64, R113). -/
theorem after_withInput {q : InputSeq} (n : Nat) {s : State}
    (hagree : ∀ k, s.cursor ≤ k → k < s.cursor + n → inputItem q k = inputItem s.input k) :
    State.after n { s with input := q } = { s.after n with input := q } := by
  induction n generalizing s with
  | zero => rfl
  | succ n ih =>
    by_cases hs : s.status = .running
    · obtain ⟨t, ht⟩ := exists_step_eq_next_of_running hs
      rw [State.after_succ ht, State.after_succ (step_withInput (hagree _ le_rfl (by omega)) ht)]
      exact ih ((input_cursor_of_step ht).1 ▸ agree_of_step ht hagree)
    · rw [State.after_of_terminal hs, State.after_of_terminal (s := { s with input := q }) hs]

/-- A run on `q` is the run on a listing of its next items (R64, R113). -/
theorem runOn_withInput {q : Input} {l : InputSeq} (n : Nat) {s : State}
    (hagree : ∀ k, s.cursor ≤ k → k < s.cursor + n → inputItem l k = q.item k) :
    { s.runOn q n with input := l } = State.after n { s with input := l } := by
  induction n generalizing s with
  | zero => rfl
  | succ n ih =>
    by_cases hs : s.status = .running
    · obtain ⟨t, ht⟩ := exists_step_eq_next_of_running (s := s.offer q) hs
      have hnext : inputItem l (s.offer q).cursor = (s.offer q).nextItem :=
        (hagree _ le_rfl (by omega)).trans (nextItem_offer q s).symm
      rw [State.runOn_succ ht, State.after_succ (s := { s with input := l }) (step_withInput (s := s.offer q) hnext ht)]
      exact ih (agree_of_step ht hagree)
    · rw [State.runOn_of_terminal hs, State.after_of_terminal (s := { s with input := l }) hs]

/-- On a finite input that the state lists already, a run on the input is a run of the state. -/
theorem runOn_finite {items : List IoItem} (n : Nat) {s : State} (h : s.input = ⟨items, false⟩) :
    s.runOn (.finite items) n = s.after n := by
  induction n generalizing s with
  | zero => rfl
  | succ n ih =>
    have hoffer : stepOn (.finite items) s = step s := congrArg step (offer_eq_self h)
    by_cases hs : s.status = .running
    · obtain ⟨t, ht⟩ := exists_step_eq_next_of_running hs
      rw [State.runOn_succ (hoffer.trans ht), State.after_succ ht]
      exact ih ((input_cursor_of_step ht).1.trans h)
    · rw [State.runOn_of_terminal hs, State.after_of_terminal hs]

/-! ## The invariant along a run -/

theorem inv_ofRun {p : RunParams} (hwf : Memory.wf p.initMem = true)
    (hwithin : Memory.within p.memSize.val p.initMem = true) : (State.ofRun p).Inv :=
  ⟨hwf, hwithin, by simp [State.cursorOk, State.ofRun]⟩

/-- Listing more of the sequence the state lists keeps the cursor within the input: a finite sequence is listed in
full, and an infinite one goes on (R64). -/
theorem inv_offer {q : Input} {m : Nat} {s : State} (hinv : s.Inv) (hlisted : s.input = q.listed m) :
    (s.offer q).Inv := by
  obtain ⟨hwf, hwithin, hcursor⟩ := hinv
  refine ⟨hwf, hwithin, ?_⟩
  cases q with
  | finite items =>
    rw [State.cursorOk, hlisted] at hcursor
    exact hcursor
  | infinite item => rfl

theorem inv_runOn {q : Input} (n : Nat) {m : Nat} {s : State} (hinv : s.Inv) (hlisted : s.input = q.listed m) :
    (s.runOn q n).Inv := by
  induction n generalizing s m with
  | zero => exact hinv
  | succ n ih =>
    by_cases hs : s.status = .running
    · obtain ⟨t, ht⟩ := exists_step_eq_next_of_running (s := s.offer q) hs
      rw [State.runOn_succ ht]
      exact ih (inv_of_step (inv_offer hinv hlisted) ht) (input_cursor_of_step ht).1
    · rwa [State.runOn_of_terminal hs]

end Sys2Proof.Machine

namespace Sys2Proof
open Machine

/-- Settles O1: every field is the value `State.ofRun` lists, and the one item listed of an infinite input is the one at
the cursor. -/
theorem resetLeavesSpecValues : Obligations.ResetLeavesSpecValues := by
  intro p
  refine ⟨fun r => by cases r <;> rfl, rfl, rfl, rfl, rfl, rfl, rfl, fun _ => rfl, fun items h => ?_,
    inputItem_listed Nat.zero_lt_one, rfl, rfl⟩
  rw [State.ofRun, h, Input.listed_finite]

/-- Settles O2: the reset memory is empty, so it is canonical and inside. -/
theorem resetMeetsInvariant : Obligations.ResetMeetsInvariant :=
  ⟨inv_ofRun rfl rfl, fun _ => inv_ofRun⟩

/-- Settles O22: by induction on the number of steps. -/
theorem runIgnoresUnreadInput : Obligations.RunIgnoresUnreadInput := fun n _ _ => after_withInput n

/-- Settles O54: by induction on the number of steps, each of which leaves the cursor where no item is left. -/
theorem endOfInputIsFinal : Obligations.EndOfInputIsFinal := by
  intro n
  induction n with
  | zero => exact fun _ h => ⟨h, rfl⟩
  | succ n ih =>
    intro s h
    by_cases hs : s.status = .running
    · obtain ⟨t, ht⟩ := exists_step_eq_next_of_running hs
      obtain ⟨hnone, hcursor⟩ := step_of_nextItem_eq_none ht h
      rw [State.after_succ ht, ← hcursor]
      exact ih t hnone
    · rw [State.after_of_terminal hs]
      exact ⟨h, rfl⟩

/-- Settles O56: the listing offered reaches one past the cursor. -/
theorem inputPortDeliversInput : Obligations.InputPortDeliversInput := by
  intro q s
  refine ⟨rfl, nextItem_offer q s, fun items hq => ⟨by rw [hq, Input.item], ?_⟩, fun item hq => ?_⟩
  · rw [nextItem_offer, hq, Input.item, List.getElem?_eq_none_iff]
  · rw [nextItem_offer, hq, Input.item]

/-- Settles O57: by induction on the number of steps, and on a listed finite input the two runs take the same steps. -/
theorem runOnInputIsRunOnListing : Obligations.RunOnInputIsRunOnListing := by
  refine fun q n s => ⟨fun l => runOn_withInput n, fun items hq h => ?_⟩
  rw [hq, runOn_finite n h]

/-- Settles O58: the run begins in the invariant, and every step on the input keeps it. -/
theorem everyRunMeetsInvariant : Obligations.EveryRunMeetsInvariant :=
  fun _ n hwf hwithin => inv_runOn n (inv_ofRun hwf hwithin) rfl

end Sys2Proof
end

section
/-! SUPPORT AND PROOF. Program load (70_reset_and_hazards.md section 2): one equivalence says which directives load and
what they leave, and the statements about a load are read off it. -/

namespace Sys2Proof.Machine

/-- The memory a directive leaves (R223). -/
def Directive.place (d : Directive) (m : Memory) : Memory :=
  match d with
  | .size _ => m
  | .text a bs => m.writeBytes a.toNat bs
  | .byte a b => m.writeBytes a.toNat [b]
  | .long a v => m.writeBytes a.toNat (bytesOfWord v)

/-- The directives after the `.size` obey the rules where the load stands: no second `.size`, at most one `.text`, and
every write inside memory (R222 to R224). -/
def Loading.Accepts (l : Loading) (ds : List Directive) : Prop :=
  (∀ m, .size m ∉ ds) ∧ (∀ d ∈ ds, d.insideMemory l.memSize.val = true) ∧
    (l.entry.toList ++ ds.filterMap Directive.textAddr).length ≤ 1

/-- The load after these directives: the entry point is the `.text` address, and the memory is placed in file order. -/
def Loading.afterAll (l : Loading) (ds : List Directive) : Loading :=
  { l with
    entry := (l.entry.toList ++ ds.filterMap Directive.textAddr).head?
    mem := ds.foldl (fun m d => d.place m) l.mem }

/-- One directive after the `.size` (R222 to R224). -/
theorem loadDirective_some_eq_ok_iff {hostLimit : Nat} {l l' : Loading} {d : Directive} :
    loadDirective hostLimit (some l) d = .ok l' ↔ l.Accepts [d] ∧ l' = l.afterAll [d] := by
  rw [loadDirective_some_eq_ok]
  cases d with
  | size n => simp [Loading.Accepts]
  | text a bs => cases he : l.entry <;> simp [Loading.Accepts, Loading.afterAll, Directive.place, he]
  | byte | long =>
    cases he : l.entry <;> simp [Loading.Accepts, Loading.afterAll, Directive.place, he, List.filterMap_cons]

/-- A list of at most one entry is the entries of its head. -/
theorem toList_head?_of_length_le_one {α : Type} {as : List α} (h : as.length ≤ 1) : as.head?.toList = as := by
  match as, h with
  | [], _ => rfl
  | [_], _ => rfl

theorem filterMap_textAddr_cons (d : Directive) (ds : List Directive) :
    (d :: ds).filterMap Directive.textAddr =
      [d].filterMap Directive.textAddr ++ ds.filterMap Directive.textAddr := by
  rw [← List.filterMap_append, List.singleton_append]

theorem Loading.accepts_nil (l : Loading) : l.Accepts [] := by
  cases he : l.entry <;> simp [Loading.Accepts, he]

theorem Loading.afterAll_nil (l : Loading) : l.afterAll [] = l := by
  obtain ⟨memSize, mem, _ | entry⟩ := l <;> rfl

/-- The rules hold of a list of directives when they hold of the first one and, where that one left the load, of the
others. -/
theorem Loading.accepts_cons {l : Loading} {d : Directive} {ds : List Directive} :
    l.Accepts (d :: ds) ↔ l.Accepts [d] ∧ (l.afterAll [d]).Accepts ds := by
  have hentry : (l.entry.toList ++ (d :: ds).filterMap Directive.textAddr).length ≤ 1 ↔
      (l.entry.toList ++ [d].filterMap Directive.textAddr).length ≤ 1 ∧
      ((l.afterAll [d]).entry.toList ++ ds.filterMap Directive.textAddr).length ≤ 1 := by
    rw [filterMap_textAddr_cons, ← List.append_assoc, Loading.afterAll]
    constructor
    · intro h
      have hfirst : (l.entry.toList ++ [d].filterMap Directive.textAddr).length ≤ 1 :=
        (List.length_append ▸ Nat.le_add_right _ _).trans h
      exact ⟨hfirst, by rwa [toList_head?_of_length_le_one hfirst]⟩
    · rintro ⟨hfirst, h⟩
      rwa [toList_head?_of_length_le_one hfirst] at h
  have hsize : (∀ m, .size m ∉ d :: ds) ↔ (∀ m, .size m ∉ [d]) ∧ ∀ m, .size m ∉ ds := by
    simp only [List.mem_cons, List.not_mem_nil, not_or, or_false, forall_and]
  have hinside : (∀ x ∈ d :: ds, x.insideMemory l.memSize.val = true) ↔
      (∀ x ∈ [d], x.insideMemory l.memSize.val = true) ∧
      ∀ x ∈ ds, x.insideMemory (l.afterAll [d]).memSize.val = true :=
    List.forall_mem_cons.trans (and_congr_left' (by rw [List.forall_mem_singleton]))
  rw [Loading.Accepts, hsize, hinside, hentry, Loading.Accepts, Loading.Accepts]
  tauto

theorem Loading.afterAll_cons {l : Loading} {d : Directive} (ds : List Directive) (h : l.Accepts [d]) :
    l.afterAll (d :: ds) = (l.afterAll [d]).afterAll ds := by
  obtain ⟨-, -, hentry⟩ := h
  simp only [Loading.afterAll, filterMap_textAddr_cons d ds, toList_head?_of_length_le_one hentry, List.foldl_cons,
    List.foldl_nil, List.append_assoc]

/-- Directives after the `.size` load exactly when they obey the rules (R221 to R224). -/
theorem loadDirectives_some_eq_ok {hostLimit : Nat} {ds : List Directive} {l : Loading} {r : Option Loading} :
    loadDirectives hostLimit (some l) ds = .ok r ↔ l.Accepts ds ∧ r = some (l.afterAll ds) := by
  induction ds generalizing l with
  | nil =>
    rw [loadDirectives, Loading.afterAll_nil, Except.ok.injEq]
    exact ⟨fun h => ⟨l.accepts_nil, h.symm⟩, fun h => h.2.symm⟩
  | cons d ds ih =>
    rw [Loading.accepts_cons]
    cases hd : loadDirective hostLimit (some l) d with
    | error e =>
      have hno : ¬ l.Accepts [d] := fun h => by
        rw [loadDirective_some_eq_ok_iff.2 ⟨h, rfl⟩] at hd
        cases hd
      simp [loadDirectives, hd, hno]
    | ok l' =>
      obtain ⟨h, rfl⟩ := loadDirective_some_eq_ok_iff.1 hd
      simp [loadDirectives, hd, ih, h, Loading.afterAll_cons ds h]

/-- The load right after a `.size` (R222). -/
def Loading.sized (n : Word) : Loading := ⟨Fin.ofNat (2 ^ 31) n.toNat, [], none⟩

/-- A load begins with a `.size` of a non-negative size the host can allocate (R222). -/
theorem loadDirectives_none_eq_ok_some {hostLimit : Nat} {ds : List Directive} {l : Loading} :
    loadDirectives hostLimit none ds = .ok (some l) ↔
      ∃ n rest, ds = .size n :: rest ∧ 0 ≤ n.toInt ∧ n.toNat ≤ hostLimit ∧ (Loading.sized n).Accepts rest ∧
        l = (Loading.sized n).afterAll rest := by
  cases ds with
  | nil => simp [loadDirectives]
  | cons d rest =>
    constructor
    · intro h
      rw [loadDirectives] at h
      split at h
      · rename_i l' hd
        obtain ⟨n, rfl, h0, hlimit, rfl⟩ := loadDirective_none_eq_ok.1 hd
        obtain ⟨haccepts, hl⟩ := loadDirectives_some_eq_ok.1 h
        exact ⟨n, rest, rfl, h0, hlimit, haccepts, Option.some.inj hl⟩
      · cases h
    · rintro ⟨n, rest', hcons, h0, hlimit, haccepts, rfl⟩
      cases hcons
      rw [loadDirectives, loadDirective_none_eq_ok.2 ⟨n, rfl, h0, hlimit, rfl⟩]
      exact loadDirectives_some_eq_ok.2 ⟨haccepts, rfl⟩

/-- Everything a load can succeed with (R220 to R224). -/
theorem loadProgram_eq_ok {hostLimit : Nat} {ds : List Directive} {q : Input} {p : RunParams} :
    loadProgram hostLimit ds q = .ok p ↔
      ∃ n rest, ds = .size n :: rest ∧ 0 ≤ n.toInt ∧ n.toNat ≤ hostLimit ∧ (∀ m, .size m ∉ rest) ∧
        (∀ d ∈ rest, d.insideMemory n.toNat = true) ∧ rest.filterMap Directive.textAddr = [p.entry] ∧
        p.memSize.val = n.toNat ∧ p.initMem = rest.foldl (fun m d => d.place m) [] ∧ p.input = q := by
  constructor
  · intro h
    rw [loadProgram] at h
    split at h
    case h_1 | h_2 => cases h
    rename_i l hl
    split at h
    case h_1 => cases h
    rename_i entry hentry
    cases h
    obtain ⟨n, rest, hds, h0, hlimit, ⟨hsize, hinside, hle⟩, rfl⟩ := loadDirectives_none_eq_ok_some.1 hl
    have htext : rest.filterMap Directive.textAddr = [entry] :=
      (toList_head?_of_length_le_one hle).symm.trans (congrArg Option.toList hentry)
    have hval : (Loading.sized n).memSize.val = n.toNat := memSize_ofNat_toNat h0
    exact ⟨n, rest, hds, h0, hlimit, hsize, hval ▸ hinside, htext, hval, rfl, rfl⟩
  · rintro ⟨n, rest, hds, h0, hlimit, hsize, hinside, htext, hval, hmem, rfl⟩
    have hval' : (Loading.sized n).memSize.val = n.toNat := memSize_ofNat_toNat h0
    have haccepts : (Loading.sized n).Accepts rest :=
      ⟨hsize, hval'.symm ▸ hinside, by simp [Loading.sized, htext]⟩
    rw [loadProgram, loadDirectives_none_eq_ok_some.2 ⟨n, rest, hds, h0, hlimit, haccepts, rfl⟩]
    simp only [Loading.afterAll, Loading.sized, Option.toList_none, List.nil_append, htext, List.head?_cons, ← hmem]
    rw [show Fin.ofNat (2 ^ 31) n.toNat = p.memSize from Fin.ext (hval'.trans hval.symm)]

/-! ## The memory a load leaves -/

theorem Directive.wf_place {m : Memory} (h : m.wf = true) (d : Directive) : (d.place m).wf = true := by
  cases d with
  | size n => exact h
  | text | byte | long => exact Memory.wf_writeBytes h _ _

/-- A directive that lies inside memory writes below the end of memory (R223). -/
theorem Directive.within_place {m : Memory} {size : Nat} {d : Directive} (h : m.within size = true)
    (hd : d.insideMemory size = true) : (d.place m).within size = true := by
  have writes {a : Word} {bs : List Byte} (h0 : 0 ≤ a.toInt) (hle : a.toInt + bs.length ≤ size) :
      (m.writeBytes a.toNat bs).within size = true := by
    rw [toInt_eq_toNat_of_nonneg h0] at hle
    exact Memory.within_writeBytes bs (by omega) h
  cases d with
  | size n => exact h
  | text a bs =>
    simp only [Directive.insideMemory, Bool.or_eq_true, List.isEmpty_iff, decide_eq_true_eq] at hd
    obtain rfl | ⟨h0, hle⟩ := hd
    · exact h
    · exact writes h0 hle
  | byte | long =>
    obtain ⟨h0, hle⟩ := of_decide_eq_true hd
    exact writes h0 hle

/-- The byte at an address after a directive: the one it writes there, or the old one (R223). -/
theorem Directive.read_place {m : Memory} (h : m.wf = true) (d : Directive) (a : Nat) :
    (d.place m).read a = (d.pokedByte a).getD (m.read a) := by
  cases d with
  | size n => rfl
  | text addr bs =>
    rw [Directive.place, Memory.read_writeBytes h, Directive.pokedByte]
    split <;> rfl
  | byte addr b =>
    rw [Directive.place, Memory.writeBytes, Memory.writeBytes, Memory.read_write h, Directive.pokedByte]
    split <;> rfl
  | long addr v =>
    refine (Memory.read_store_word h addr.toNat v a).trans ?_
    rw [Directive.pokedByte]
    split <;> rfl

/-- Directives in file order keep the memory canonical and inside, and the last that writes a byte wins (R221, R223). -/
theorem foldl_place {ds : List Directive} {m : Memory} {size : Nat} (hwf : m.wf = true)
    (hwithin : m.within size = true) (hds : ∀ d ∈ ds, d.insideMemory size = true) :
    Memory.wf (ds.foldl (fun m d => d.place m) m) = true ∧
      Memory.within size (ds.foldl (fun m d => d.place m) m) = true ∧
      ∀ a, Memory.read (ds.foldl (fun m d => d.place m) m) a =
        ds.foldl (fun b d => (d.pokedByte a).getD b) (m.read a) := by
  induction ds generalizing m with
  | nil => exact ⟨hwf, hwithin, fun _ => rfl⟩
  | cons d ds ih =>
    obtain ⟨hd, hrest⟩ := List.forall_mem_cons.1 hds
    obtain ⟨hwf', hwithin', hread⟩ := ih (d.wf_place hwf) (Directive.within_place hwithin hd) hrest
    refine ⟨hwf', hwithin', fun a => ?_⟩
    rw [List.foldl_cons, hread, Directive.read_place hwf, List.foldl_cons]

end Sys2Proof.Machine

namespace Sys2Proof
open Machine

/-- Settles O3: every directive keeps the memory canonical and inside. -/
theorem loadedProgramMeetsInvariant : Obligations.LoadedProgramMeetsInvariant := by
  intro hostLimit ds q p h
  obtain ⟨n, rest, -, -, -, -, hinside, -, hsize, hmem, -⟩ := loadProgram_eq_ok.1 h
  obtain ⟨hwf, hwithin, -⟩ := foldl_place (m := []) rfl rfl hinside
  exact inv_ofRun (hmem ▸ hwf) (hmem ▸ hsize.symm ▸ hwithin)

/-- Settles O4: the rules of a successful load, and the bytes its directives place. -/
theorem loadAppliesDirectivesInOrder : Obligations.LoadAppliesDirectivesInOrder := by
  intro hostLimit ds q p h
  obtain ⟨n, rest, hds, h0, hlimit, hone, hinside, htext, hsize, hmem, hinput⟩ := loadProgram_eq_ok.1 h
  obtain ⟨-, -, hread⟩ := foldl_place (m := []) rfl rfl hinside
  exact ⟨n, rest, hds, h0, hlimit, hsize, hinput, hone, htext, hsize.symm ▸ hinside, hmem ▸ hread⟩

/-- Settles O55: where the rules hold, the parameters they determine are what the load answers. -/
theorem loadSucceedsExactlyWhenRulesHold : Obligations.LoadSucceedsExactlyWhenRulesHold := by
  intro hostLimit ds q
  constructor
  · rintro ⟨p, h⟩
    obtain ⟨n, rest, hds, h0, hlimit, hone, hinside, htext, -⟩ := loadProgram_eq_ok.1 h
    exact ⟨n, rest, p.entry, hds, h0, hlimit, hone, htext, hinside⟩
  · rintro ⟨n, rest, entry, hds, h0, hlimit, hone, htext, hinside⟩
    refine ⟨⟨Fin.ofNat (2 ^ 31) n.toNat, entry, rest.foldl (fun m d => d.place m) [], q⟩, loadProgram_eq_ok.2 ?_⟩
    exact ⟨n, rest, hds, h0, hlimit, hone, hinside, htext, memSize_ofNat_toNat h0, rfl, rfl⟩

end Sys2Proof
end


section
/-! SUPPORT AND PROOF. Memory operands and the stack (20_memory.md, 42_moves.md, 45_call_stack.md, 46_io.md,
47_movsbl.md): an instruction with one checked address commits where it is in bounds and raises where it is not, and a committed word
store is read back and leaves every other byte. -/

namespace Sys2Proof.Machine

/-! ## One checked address -/

theorem exec_of_inBounds {i : Instr} {s : State} {a : Word} {n : Nat} (hchecks : i.checks s = [(a, n)])
    (h : s.inBounds a n = true) : exec i s = .next (i.committed s) := by
  rw [exec_eq, addressOk_of_checks_singleton hchecks, if_pos h]

/-- Out of bounds the raise changes `status` alone (D5). -/
theorem exec_of_outOfBounds {i : Instr} {s : State} {a : Word} {n : Nat} (hchecks : i.checks s = [(a, n)])
    (h : s.inBounds a n = false) : exec i s = .next { s with status := .invalidAddress } := by
  rw [exec_eq, addressOk_of_checks_singleton hchecks, h, if_neg Bool.false_ne_true]

/-! ## Stored words -/

/-- A word stored at an address is the word there (R44, R46). -/
theorem wordAt_of_store {s t : State} {a : Nat} {v : Word} (hwf : s.mem.wf = true)
    (ht : t.mem = s.mem.store a v .word) : t.wordAt a = v := by
  rw [← load_word_eq_wordAt, ht, Memory.load_store_word hwf]

/-- A store leaves the bytes outside its own (R45, R46). -/
theorem sameOutside_of_store {s t : State} {a v : Word} {w : Width} (hwf : s.mem.wf = true)
    (ht : t.mem = s.mem.store a.toNat v w) : s.sameOutside t a w.bytes := by
  intro x hx
  rw [State.byteAt, ht, Memory.read_store_of_outside hwf v hx, State.byteAt]

/-- An address inside an access that is in bounds does not wrap (R42, R48). -/
theorem toNat_add_of_inBounds {s : State} {a : Word} {n k : Nat} (h : s.inBounds a n = true) (hk : k < n) :
    (a + BitVec.ofNat 32 k).toNat = a.toNat + k := by
  have hle := State.toNat_add_le_of_inBounds h
  have hlt := s.memSize.isLt
  rw [BitVec.toNat_add, BitVec.toNat_ofNat]
  omega

/-- The bytes of an access in bounds are in bounds one by one (R42). -/
theorem State.inBounds_add {s : State} {a : Word} {n k : Nat} (h : s.inBounds a n = true) (hk : k < n) :
    s.inBounds (a + BitVec.ofNat 32 k) 1 = true := by
  have hle := State.toNat_add_le_of_inBounds h
  have hlt := s.memSize.isLt
  rw [State.inBounds_iff_toNat, toNat_add_of_inBounds h hk]
  omega

/-- A write leaves `MEM_SIZE`, so what is in bounds stays in bounds. -/
theorem inBounds_memWrite32 (s : State) (a v b : Word) (n : Nat) :
    (memWrite32 a v s).inBounds b n = s.inBounds b n := by
  rw [memWrite32_eq]
  rfl

end Sys2Proof.Machine

namespace Sys2Proof
open Machine

/-- Settles O24: bit 31 is clear exactly when the unsigned value is below 2^31. -/
theorem negativeAddressesNeverInBounds : Obligations.NegativeAddressesNeverInBounds := by
  intro s a n
  rw [State.inBounds_iff_toNat, BitVec.msb_eq_false_iff_two_mul_lt]
  refine and_congr_left' ?_
  omega

/-- Settles O25: the bytes of the word in bounds, and the word joined from them. -/
theorem mixedWidthReadsAfterWrite : Obligations.MixedWidthReadsAfterWrite := by
  intro s a v k hwf hin hk
  constructor
  · rw [memRead8_of_inBounds (by rw [inBounds_memWrite32]; exact State.inBounds_add hin hk),
      toNat_add_of_inBounds hin hk, byteAt_memWrite32_add hwf hin v hk]
  · have hmem : (memWrite32 a v s).mem = s.mem.store a.toNat v .word := by rw [memWrite32_eq, if_pos hin]
    rw [memRead32_of_inBounds (by rwa [inBounds_memWrite32]), wordAt_of_store hwf hmem]

/-! ## Moves -/

/-- Settles O31: what `irmovl` commits is `exec_irmovl`. -/
theorem irmovlLoadsImmediate : Obligations.IrmovlLoadsImmediate :=
  fun b v s => ⟨_, exec_irmovl b v s, fun r => RegFile.read_write s.regs b r v, rfl⟩

/-- Settles O32: one checked address, one word store. -/
theorem rmmovlStoresWord : Obligations.RmmovlStoresWord := by
  refine fun a b d s hwf => ⟨fun h => ?_, exec_of_outOfBounds rfl⟩
  exact ⟨_, exec_of_inBounds rfl h, wordAt_of_store hwf rfl, sameOutside_of_store (w := .word) hwf rfl, rfl⟩

/-- Settles O33: one checked address each; sign extension keeps the signed value. -/
theorem loadsWordOrSignedByte : Obligations.LoadsWordOrSignedByte := by
  refine fun a b d s => ⟨fun h => ?_, fun h => ?_, exec_of_outOfBounds rfl, exec_of_outOfBounds rfl⟩
  · exact ⟨_, exec_of_inBounds rfl h, fun r => RegFile.read_write s.regs a r _, rfl⟩
  · refine ⟨_, exec_of_inBounds rfl h, ?_, fun r hr => (RegFile.read_write s.regs a r _).trans (if_neg hr), rfl⟩
    have hreg : ((Instr.movsbl a b d).committed s).reg a = (s.byteAt (s.reg b + d).toNat).signExtend 32 :=
      (RegFile.read_write s.regs a a _).trans (if_pos rfl)
    rw [hreg, BitVec.toInt_signExtend_of_le (by decide)]

/-! ## Call, return, stack -/

/-- `call` checks its target and its slot (R170). -/
theorem Machine.addressOk_call (dest : Word) (s : State) :
    (Instr.call dest).addressOk s = (s.inBounds dest 1 && s.inBounds (s.reg .esp - 4#32) 4) := by
  rw [Instr.addressOk, Instr.checks, List.all_cons, List.all_cons, List.all_nil, Bool.and_true, pushSlot]

/-- Settles O44: two checked addresses, one word store. -/
theorem callPushesReturnAddress : Obligations.CallPushesReturnAddress := by
  refine fun dest s hwf => ⟨fun htarget hslot => ?_, fun h => ?_⟩
  · have hexec : exec (.call dest) s = .next ((Instr.call dest).committed s) := by
      rw [exec_eq, addressOk_call, htarget, hslot, Bool.and_self, if_pos rfl]
    exact ⟨_, hexec, fun r => RegFile.read_write s.regs .esp r _, wordAt_of_store hwf rfl,
      sameOutside_of_store (w := .word) hwf rfl, rfl⟩
  · rw [exec_eq, addressOk_call, Bool.and_eq_false_iff.2 h, if_neg Bool.false_ne_true]

/-- Settles O45: one checked address, and `pc` takes the word there. -/
theorem retPopsReturnAddress : Obligations.RetPopsReturnAddress := by
  refine fun s => ⟨fun h => ?_, exec_of_outOfBounds rfl⟩
  exact ⟨_, exec_of_inBounds rfl h, fun r => RegFile.read_write s.regs .esp r _, rfl⟩

/-- Settles O46: one checked address, one word store. -/
theorem pushlStoresRegister : Obligations.PushlStoresRegister := by
  refine fun a s hwf => ⟨fun h => ?_, exec_of_outOfBounds rfl⟩
  exact ⟨_, exec_of_inBounds rfl h, fun r => RegFile.read_write s.regs .esp r _, wordAt_of_store hwf rfl,
    sameOutside_of_store (w := .word) hwf rfl, rfl⟩

/-- The registers after `popl`: esp is written last (R173). -/
theorem Machine.reg_committed_popl (a r : Reg) (s : State) :
    ((Instr.popl a).committed s).reg r =
      if r = .esp then (if a = .esp then s.wordAt (s.reg .esp).toNat else s.reg .esp) + 4#32
      else if r = a then s.wordAt (s.reg .esp).toNat else s.reg r :=
  (State.reg_setReg _ .esp r _).trans (congrArg (ite _ _) (State.reg_setReg s a r _))

/-- Settles O47: one checked address, and the two register writes in their order. -/
theorem poplLoadsRegister : Obligations.PoplLoadsRegister := by
  refine fun a s => ⟨fun h => ⟨_, exec_of_inBounds rfl h, fun ha => ⟨?_, ?_⟩, fun ha => ?_, fun r hra hr => ?_, rfl⟩,
    exec_of_outOfBounds rfl⟩
  · rw [reg_committed_popl, if_neg ha, if_pos rfl]
  · rw [reg_committed_popl, if_pos rfl, if_neg ha]
  · rw [reg_committed_popl, if_pos rfl, if_pos ha]
  · rw [reg_committed_popl, if_neg hr, if_neg hra]

/-- Settles O48: the pop's slot is the push's, which holds the pushed register. -/
theorem pushThenPopRestores : Obligations.PushThenPopRestores := by
  intro a c s t hwf ha hc hin h
  obtain ⟨hpush, -⟩ := pushlStoresRegister a s hwf
  obtain ⟨t', ht', hreg, hword, -, hframe⟩ := hpush hin
  cases ht'.symm.trans h
  have hesp : t.reg .esp = s.reg .esp - 4#32 := by rw [hreg, if_pos rfl]
  have hin' : t.inBounds (t.reg .esp) 4 = true := by rw [hesp, hframe]; exact hin
  rw [if_neg ha, ← hesp] at hword
  have hback : ((Instr.popl c).committed t).reg .esp = s.reg .esp := by
    rw [reg_committed_popl, if_pos rfl, if_neg hc, hesp, BitVec.sub_add_cancel]
  refine ⟨_, exec_of_inBounds rfl hin', ?_, hback, fun r hrc => ?_⟩
  · rw [reg_committed_popl, if_neg hc, if_pos rfl, hword]
  · by_cases hr : r = .esp
    · rw [hr, hback]
    · rw [reg_committed_popl, if_neg hr, if_neg hrc, hreg, if_neg hr]

/-- Settles O49: the return's slot is the call's, which holds the return address. -/
theorem callThenRetReturns : Obligations.CallThenRetReturns := by
  intro dest s t u hwf htarget hslot h hregs hmem hsize
  obtain ⟨t', ht', hreg, hword, -, hframe⟩ := (callPushesReturnAddress dest s hwf).1 htarget hslot
  cases ht'.symm.trans h
  have hureg (r : Reg) : u.reg r = if r = .esp then s.reg .esp - 4#32 else s.reg r :=
    (State.reg_congr hregs r).trans (hreg r)
  have hesp : u.reg .esp = s.reg .esp - 4#32 := by rw [hureg, if_pos rfl]
  have hin : u.inBounds (u.reg .esp) 4 = true := by
    rw [hesp, State.inBounds, hsize, hframe]
    exact hslot
  obtain ⟨w, hw, hwreg, hwframe⟩ := (retPopsReturnAddress u).1 hin
  refine ⟨w, hw, ?_, RegFile.ext_read fun r => ?_⟩
  · rw [hwframe, hesp, ← load_word_eq_wordAt, hmem, load_word_eq_wordAt, hword]
  · refine (hwreg r).trans ?_
    split
    · subst r
      rw [hesp, BitVec.sub_add_cancel]
      rfl
    · rename_i hr
      exact (hureg r).trans (if_neg hr)

/-! ## Input and output -/

/-- Settles O50: a read at the end of the input sets ZF, and a read out of bounds raises before it consumes. -/
theorem readsAtEndOfInputSetZf : Obligations.ReadsAtEndOfInputSetZf := by
  refine fun a d s => ⟨fun h hnone => ?_, fun h hnone => ?_, exec_of_outOfBounds rfl, exec_of_outOfBounds rfl⟩
  · have hexec := exec_readb a d s
    rwa [show s.inBounds (effAddr a d s) 1 = true from h, if_pos rfl, hnone] at hexec
  · have hexec := exec_readl a d s
    rwa [show s.inBounds (effAddr a d s) 4 = true from h, if_pos rfl, hnone] at hexec

/-- A read of an item that is there: ZF cleared, the item stored, the cursor behind it (R180, R181). -/
theorem Machine.received_of_some {s : State} {item : IoItem} (h : s.nextItem = some item) (store : IoItem → Memory) :
    s.received store = { s with zf := false, mem := store item, cursor := s.cursor + 1 } := by
  simp [State.received, h]

/-- Settles O51: the byte stored is the one the input port gives for the item. -/
theorem readbStoresNextByte : Obligations.ReadbStoresNextByte := by
  intro a d s item ea hwf hin hitem
  have hexec := exec_of_inBounds (i := .readb a d) rfl hin
  rw [Instr.committed, Instr.effect, received_of_some hitem] at hexec
  refine ⟨_, IoItem.asByte s.cursor item, hexec, ?_, ?_, sameOutside_of_store (w := .byte) hwf rfl, rfl⟩
  · rintro b' rfl
    rfl
  · exact (Memory.read_store_byte hwf ea.toNat _ ea.toNat).trans ((if_pos rfl).trans (byteOfWord_setWidth _))

/-- Settles O52: the word stored is the one the input port gives for the item. -/
theorem readlStoresNextWord : Obligations.ReadlStoresNextWord := by
  intro a d s item ea hwf hin hitem
  have hexec := exec_of_inBounds (i := .readl a d) rfl hin
  rw [Instr.committed, Instr.effect, received_of_some hitem] at hexec
  refine ⟨_, IoItem.asWord s.cursor item, hexec, ?_, wordAt_of_store hwf rfl,
    sameOutside_of_store (w := .word) hwf rfl, rfl⟩
  rintro v' rfl
  rfl

/-- Settles O53: one checked address each, and one item appended. -/
theorem writesAppendItem : Obligations.WritesAppendItem :=
  fun _ _ _ => ⟨exec_of_inBounds rfl, exec_of_inBounds rfl, exec_of_outOfBounds rfl, exec_of_outOfBounds rfl⟩

end Sys2Proof
end

section
/-! SUPPORT AND PROOF. Overflow of the wrapped sum and difference (43_alu.md), and the jumps over the flags a compare
leaves (44_jumps.md). -/

namespace Sys2Proof.Machine

/-! ## Wrapping a sum or a difference of two words -/

/-- An integer of at most 33 bits wraps by adding or taking away 2^32 once, or not at all. -/
theorem toInt_ofInt_cases {p : Int} (hlo : -2 ^ 32 ≤ p) (hhi : p < 2 ^ 32) :
    ((BitVec.ofInt 32 p).toInt = p ∧ -2 ^ 31 ≤ p ∧ p < 2 ^ 31) ∨
    ((BitVec.ofInt 32 p).toInt = p + 2 ^ 32 ∧ p < -2 ^ 31) ∨
    ((BitVec.ofInt 32 p).toInt = p - 2 ^ 32 ∧ 2 ^ 31 ≤ p) := by
  rw [BitVec.toInt_ofInt, Int.bmod_def]
  split <;> omega

/-- The signed value of a word lies in the signed 32-bit range (R8). -/
theorem toInt_range (x : Word) : -2 ^ 31 ≤ x.toInt ∧ x.toInt < 2 ^ 31 := ⟨BitVec.le_toInt x, BitVec.toInt_lt⟩

theorem eq_zero_iff_toInt {x : Word} : x = 0#32 ↔ x.toInt = 0 := by
  rw [← BitVec.toInt_inj]
  rfl

theorem eq_min_iff_toInt {x : Word} : x = 0x80000000#32 ↔ x.toInt = -2 ^ 31 := by
  rw [← BitVec.toInt_inj]
  rfl

/-! ## The overflow formulas -/

theorem aluOverflow_add_iff {x y r : Word} : aluOverflow .add x y r = true ↔
    (y.toInt < 0 ∧ x.toInt < 0 ∧ 0 ≤ r.toInt) ∨ (0 ≤ y.toInt ∧ 0 ≤ x.toInt ∧ r.toInt < 0) :=
  decide_eq_true_iff

theorem aluOverflow_sub_iff {x y r : Word} : aluOverflow .sub x y r = true ↔
    (x.toInt < 0 ∧ y.toInt > 0 ∧ r.toInt > 0) ∨ (x.toInt > 0 ∧ y.toInt < 0 ∧ r.toInt < 0) :=
  decide_eq_true_iff

/-! ## The flags of a compare (R142) -/

/-- ZF after a compare is equality: the difference of two words wraps to 0 only if it is 0. -/
theorem alu_sub_zf_iff {x y : Word} : (alu .sub x y).zf = true ↔ x.toInt = y.toInt := by
  show decide (x - y = 0#32) = true ↔ _
  rw [decide_eq_true_iff, BitVec.toInt_inj, BitVec.sub_eq_iff_eq_add, BitVec.zero_add]

/-- SF differs from OF after a compare exactly on "less", but for the pair the source's formula misses (R138, R142). -/
theorem alu_sub_sf_ne_of_iff {x y : Word} (h : ¬(x = 0#32 ∧ y = 0x80000000#32)) :
    ((alu .sub x y).sf != (alu .sub x y).of) = true ↔ x.toInt < y.toInt := by
  obtain ⟨-, hsf⟩ := alu_zf_sf (aluResult_sub x y)
  have hof : (alu .sub x y).of = aluOverflow .sub x y (BitVec.ofInt 32 (x.toInt - y.toInt)) :=
    congrArg (aluOverflow .sub x y) (aluResult_sub x y)
  rw [eq_zero_iff_toInt, eq_min_iff_toInt] at h
  have hx := toInt_range x
  have hy := toInt_range y
  have hwrap := toInt_ofInt_cases (p := x.toInt - y.toInt) (by omega) (by omega)
  rw [bne_iff_ne, ne_eq, Bool.eq_iff_iff, hsf, hof, decide_eq_true_iff, aluOverflow_sub_iff]
  omega

/-- The four orders of the jump conditions, where SF ≠ OF says "less" and ZF says "equal" (R157 to R162). -/
theorem conditions_of_less_equal {zf sf of : Bool} {less equal : Prop} (hL : (sf != of) = true ↔ less)
    (hE : zf = true ↔ equal) :
    (condL sf of = true ↔ less) ∧ (condLe zf sf of = true ↔ less ∨ equal) ∧
    (condG zf sf of = true ↔ ¬less ∧ ¬equal) ∧ (condGe sf of = true ↔ ¬less) := by
  have hge : condGe sf of = true ↔ ¬less := by
    rw [condGe, ← condL, condL_eq, Bool.not_eq_true', ← Bool.not_eq_true, hL]
  refine ⟨hL, ?_, ?_, hge⟩
  · rw [condLe_eq, Bool.or_eq_true, hL, hE]
  · rw [condG, ← condGe, Bool.and_eq_true, hge, Bool.not_eq_true', ← Bool.not_eq_true, hE]

/-- Where a jump over condition `p` goes, its target in bounds (R155). -/
theorem exec_jump_iff {i : Instr} {t : State} {dest : Word} {taken : Bool} {p : Prop}
    (hi : exec i t = jumpIf taken dest t) (hin : t.inBounds dest 1 = true) (hp : taken = true ↔ p) :
    (p → exec i t = .next { t with pc := dest }) ∧ (¬p → exec i t = .next { t with pc := t.pc + 5#32 }) := by
  rw [hi, jumpIf_of_inBounds hin]
  exact ⟨fun h => by rw [if_pos (hp.2 h)], fun h => by rw [if_neg (mt hp.1 h)]⟩

/-- A jump whose condition does not hold checks nothing, and one whose condition holds raises when its target is out of
bounds (R155, D20). -/
theorem jumpIf_checks_taken (taken : Bool) (dest : Word) (s : State) :
    (taken = true → s.inBounds dest 1 = false → jumpIf taken dest s = .next { s with status := .invalidAddress }) ∧
    (taken = false → jumpIf taken dest s = .next { s with pc := s.pc + 5#32 }) := by
  rw [jumpIf_eq]
  constructor
  · rintro rfl h
    rw [h]
    rfl
  · rintro rfl
    rfl

end Sys2Proof.Machine

namespace Sys2Proof
open Machine

/-- Opcode byte and register byte (R138). -/
theorem encode_subl (a b : Reg) : encode (.subl a b) = [0x61#8, registerByte a.code b.code] := rfl

/-- Settles O35: the sum wraps exactly when equal operand signs give the other sign. -/
theorem addlResultAndOverflow : Obligations.AddlResultAndOverflow := by
  intro a b s x y r
  obtain ⟨t, ht, hreg, hzf, hsf, hof, hframe⟩ :=
    exists_next_of_commitAlu (exec_addl a b s) (aluResult_add (s.reg b) (s.reg a))
  rw [Bool.eq_iff_iff, aluOverflow_add_iff] at hof
  refine ⟨t, ht, hreg, hzf, hsf, hof, hof.trans ?_, hframe⟩
  have hx := toInt_range (s.reg b)
  have hy := toInt_range (s.reg a)
  have hwrap := toInt_ofInt_cases (p := (s.reg b).toInt + (s.reg a).toInt) (by omega) (by omega)
  omega

/-- Settles O36: the formula misses the overflow of 0 - (-2^31) alone, for it asks for a positive x[rB]. -/
theorem sublResultAndOverflow : Obligations.SublResultAndOverflow := by
  intro a b s x y r
  obtain ⟨t, ht, hreg, hzf, hsf, hof, hframe⟩ :=
    exists_next_of_commitAlu (exec_subl a b s) (aluResult_sub (s.reg b) (s.reg a))
  have hformula : t.of = true ↔ (x < 0 ∧ y > 0 ∧ r.toInt > 0) ∨ (x > 0 ∧ y < 0 ∧ r.toInt < 0) := by
    rw [hof, aluOverflow_sub_iff]
  refine ⟨encode_subl a b, t, ht, hreg, hzf, hsf, hformula, ?_, hframe⟩
  have hx := toInt_range (s.reg b)
  have hy := toInt_range (s.reg a)
  have hwrap : (r.toInt = x - y ∧ -2 ^ 31 ≤ x - y ∧ x - y < 2 ^ 31) ∨ (r.toInt = x - y + 2 ^ 32 ∧ x - y < -2 ^ 31) ∨
      (r.toInt = x - y - 2 ^ 32 ∧ 2 ^ 31 ≤ x - y) := toInt_ofInt_cases (by omega) (by omega)
  rw [hformula, eq_zero_iff_toInt, eq_min_iff_toInt]
  omega

/-- Settles O39: the wrapped integer results, and the library's laws of the bit-wise operations. -/
theorem aluIntegerLaws : Obligations.AluIntegerLaws := by
  refine fun x y => ⟨aluResult_add x y, aluResult_sub x y, aluResult_mul x y, ?_, fun k => BitVec.getLsbD_and,
    fun k => BitVec.getLsbD_xor⟩
  refine (aluResult_mul x y).trans ?_
  rw [BitVec.ofInt_mul, BitVec.ofInt_toInt, BitVec.ofInt_toInt, BitVec.ofNat_mul, BitVec.ofNat_toNat,
    BitVec.ofNat_toNat, BitVec.setWidth_eq, BitVec.setWidth_eq]

/-- Settles O40: both take the flags of the same subtraction. -/
theorem cmplSetsFlagsOfSubl : Obligations.CmplSetsFlagsOfSubl :=
  fun a b s => ⟨_, _, exec_cmpl a b s, exec_subl a b s, rfl⟩

/-- Settles O43: every jump is `jumpIf` of its condition. -/
theorem jumpTargetCheckedOnlyWhenTaken : Obligations.JumpTargetCheckedOnlyWhenTaken := by
  intro dest s i taken hmem
  have jumps (hexec : exec i s = jumpIf taken dest s) := hexec ▸ jumpIf_checks_taken taken dest s
  simp only [List.mem_cons, Prod.mk.injEq, List.not_mem_nil, or_false] at hmem
  obtain ⟨rfl, rfl⟩ | ⟨rfl, rfl⟩ | ⟨rfl, rfl⟩ | ⟨rfl, rfl⟩ | ⟨rfl, rfl⟩ | ⟨rfl, rfl⟩ | ⟨rfl, rfl⟩ := hmem
  · exact jumps (exec_jmp dest s)
  · exact jumps (by rw [exec_jle, condLe_eq])
  · exact jumps (by rw [exec_jl, condL_eq])
  · exact jumps (by rw [exec_je, condE])
  · exact jumps (by rw [exec_jne, condNe])
  · exact jumps (by rw [exec_jge, condGe_eq])
  · exact jumps (by rw [exec_jg, condG_eq])

/-- Settles O41: each condition over the flags of the subtraction is an order of the operands; for the exceptional pair
OF is clear, so SF alone says "less". -/
theorem jumpsAfterCmplFollowSignedOrder : Obligations.JumpsAfterCmplFollowSignedOrder := by
  intro a b s t dest h hin x y goes
  rw [exec_cmpl] at h
  cases h
  have hE : (alu .sub (s.reg b) (s.reg a)).zf = true ↔ x = y := alu_sub_zf_iff
  have hNe : condNe (alu .sub (s.reg b) (s.reg a)).zf = true ↔ x ≠ y := by
    rw [condNe, Bool.not_eq_true', ← Bool.not_eq_true, hE]
  refine ⟨exec_jump_iff (exec_je _ _) hin hE, exec_jump_iff (exec_jne _ _) hin hNe, fun hpair => ?_, fun hpair => ?_⟩
  · obtain ⟨hl, hle, hg, hge⟩ := conditions_of_less_equal (alu_sub_sf_ne_of_iff hpair) hE
    exact ⟨exec_jump_iff (exec_jl _ _) hin hl, exec_jump_iff (exec_jle _ _) hin (hle.trans le_iff_lt_or_eq.symm),
      exec_jump_iff (exec_jg _ _) hin (hg.trans (by omega)), exec_jump_iff (exec_jge _ _) hin (hge.trans not_lt)⟩
  · have hL : ((alu .sub (s.reg b) (s.reg a)).sf != (alu .sub (s.reg b) (s.reg a)).of) = true ↔ True := by
      rw [hpair.1, hpair.2]
      decide
    obtain ⟨hl, hle, hg, hge⟩ := conditions_of_less_equal hL hE
    rw [true_or] at hle
    rw [not_true, false_and] at hg
    rw [not_true] at hge
    exact ⟨exec_jump_iff (exec_jl _ _) hin hl, exec_jump_iff (exec_jle _ _) hin hle,
      exec_jump_iff (exec_jg _ _) hin hg, exec_jump_iff (exec_jge _ _) hin hge⟩

end Sys2Proof
end
